-- ==== Sys2Proof/Word.lean ====
section
/-! DEFINITION. The value types of the note-priority-stack: notes, velocities, links, command and response words. -/

namespace Sys2Proof

/-- A command word: 32 bits (R13, R60). -/
abbrev CmdWord := BitVec 32

/-- A response word: 16 bits (R13, R65). -/
abbrev RespWord := BitVec 16

/-- A note value 0 to 127: the index of its entry (R7, R21). -/
abbrev Note := Fin 128

/-- A velocity: 7 bits, 0 to 127 (R9). -/
abbrev Vel := BitVec 7

/-- A link or the `top` register: `none` is `NIL`, `some i` names entry `i` (R10).
Its 8-bit value is `linkBits`, in Machine/Operands.lean. DESIGN CHOICE (log 3). -/
abbrev Link := Option Note

end Sys2Proof
end

