-- ==== Sys2Proof/Machine/State.lean ====
section
/-! DEFINITION. The state: the block itself (R20) and the host's side of its ports (R146, R147), as plain
data; the reasons a step can stop; the state after reset (R36, R140). -/

namespace Sys2Proof.Machine

/-- One entry of the array (R21). The `note` field is hardwired to the entry's index and not stored
(R21, D27): see `Block.noteField`. -/
structure Entry where
  /-- 1 bit: the entry is linked into the list, so its note is held (R22). -/
  active : Bool
  /-- 7 bits: the velocity of the latest PUSH of this note. -/
  vel    : Vel
  /-- The link toward the top (R24). -/
  up     : Link
  /-- The link toward the bottom (R24). -/
  down   : Link
  deriving DecidableEq, Repr

/-- The block's architectural state: exactly the entry array and the `top` register (R20, R23). -/
structure Block where
  entries : Vector Entry 128
  top     : Link
  deriving DecidableEq, Repr

/-- The two execution contexts of the system (R129). -/
inductive Issuer where
  /-- The main loop, the one issuer of commands (R48). -/
  | mainLoop
  /-- The timer interrupt handler, which must never issue one (R145). -/
  | interruptHandler
  deriving DecidableEq, Repr

/-- What the world outside the block does, one thing at a time (R147; log 1). -/
inductive HostEvent where
  /-- A command word is sent to the command port. -/
  | command (issuer : Issuer) (w : CmdWord)
  /-- The host takes up to `k` of the response words that wait for it, oldest first (R50; log 2). -/
  | take (k : Nat)
  /-- The level of the reset input: `true` asserts it (R140). -/
  | resetInput (asserted : Bool)
  /-- Power comes up after a loss of power, which is a reset (R131, R140). -/
  | powerUp
  /-- The timer interrupt handler runs; it touches no state of the block (R123; log 11). -/
  | timerInterrupt
  deriving DecidableEq, Repr

/-- The machine: the block, and the host's side of its ports. -/
structure State where
  /-- The block's own state (R20). -/
  block     : Block
  /-- The level of the reset input (R140, R142). -/
  resetLine : Bool
  /-- The host events not yet performed, the next one first (R49, R146; log 1). -/
  inputs    : List HostEvent
  /-- The response words sent and not yet taken by the host, oldest first (R50; log 2). -/
  waiting   : List RespWord
  /-- The response words the host has taken, oldest first (R146; log 2). -/
  delivered : List RespWord
  /-- The model's own: how many reset events there were, so that each has fresh free values (log 5). -/
  freeCount : Nat
  deriving DecidableEq, Repr

/-- The machine has no fault: no command raises an exception and nothing is fatal (R120, R132; log 14). -/
inductive Fault
  deriving DecidableEq, Repr

/-- Why a step has no transition (R132). Every one of these is safe: it errs toward unprovable. -/
inductive Refusal where
  /-- Raised by an arm of `exec` whose instruction has no meaning yet; no arm does. Safe. -/
  | notModelled (mnemonic : String)
  /-- Raised by `fetch`: a reserved command word, which the host must never send (R66, U1). Safe. -/
  | reservedWord
  /-- Raised by `fetch`: a command from interrupt context (R48, R145, U5). Safe. -/
  | commandFromInterrupt
  /-- Raised by `fetch`: a command while reset is asserted (R142, U6). Safe. -/
  | commandDuringReset
  /-- Raised by `fetch`: a command sent before every response word of the one before it was taken
  (R50, U7). Safe. -/
  | responseNotTaken
  /-- Raised by `fetch`: a launch state that violates INV, for which the block has no meaning
  (R26, U4; log 7). Safe. -/
  | launchViolatesInv
  deriving DecidableEq, Repr

/-- An entry after reset: inactive, with `NIL` links (R36). Its velocity, which the spec leaves
unspecified, is 0: DESIGN CHOICE (log 4). -/
def Entry.reset : Entry := { active := false, vel := 0, up := none, down := none }

/-- The block after reset (R36). -/
def Block.reset : Block := { entries := Vector.replicate 128 Entry.reset, top := none }

/-- The machine right after reset: the empty stack (R36, R140), the reset input released, and a host
that has sent and taken nothing (log 9). -/
def State.reset : State :=
  { block := Block.reset
    resetLine := false
    inputs := []
    waiting := []
    delivered := []
    freeCount := 0 }

end Sys2Proof.Machine
end

