-- ==== Sys2Proof/Machine/Operands.lean ====
section
/-! DEFINITION. Operands and response words: which entry a note operand names (R43, R62), the 8-bit value
of a link (R10), the response word (R65). -/

namespace Sys2Proof.Machine

/-- `NIL`, the null link value (R10). -/
def nil8 : BitVec 8 := 0xFF

/-- The entry a note operand names: none where `note >= 128` (R43, R82, R83). -/
def noteOperand (a : BitVec 8) : Option Note :=
  if h : a.toNat < 128 then some ⟨a.toNat, h⟩ else none

/-- `zext_8` of a note (R65). -/
def noteBits (i : Note) : BitVec 8 := BitVec.ofNat 8 i.val

/-- `zext_8` of a velocity (R65). -/
def velBits (v : Vel) : BitVec 8 := v.setWidth 8

/-- The 8-bit value of a link or of `top` (R10). -/
def linkBits (l : Link) : BitVec 8 :=
  match l with
  | none   => nil8
  | some i => noteBits i

/-- The link with an 8-bit value, none for the values `0x80` to `0xFE` that are never held (R10). -/
def linkOfBits (w : BitVec 8) : Option Link :=
  if w = nil8 then some none else (noteOperand w).map some

/-- The response word `{tag, 0, data}` (R65). -/
def response (tag : BitVec 4) (data : BitVec 8) : RespWord := tag ++ 0#4 ++ data

/-- The `tag` field of a response word (R65). -/
def responseTag (w : RespWord) : BitVec 4 := w.extractLsb' 12 4

/-- The `data` field of a response word (R65). -/
def responseData (w : RespWord) : BitVec 8 := w.extractLsb' 0 8

end Sys2Proof.Machine
end

