-- ==== Sys2Proof/Machine/Ops.lean ====
section
/-! DEFINITION. The primitives of R16 over the entry array and the `top` register, the helpers `unlink` (R80)
and `link_top` (R81), the walk of the list (R28, R101) and `emit` (R16). There is no exception to take and
no trap to return from (R120, R125), so there is no such operation. -/

namespace Sys2Proof.Machine

/-- `E[i]` (R16, R40). -/
def Block.entry (b : Block) (i : Note) : Entry := b.entries[i]

/-- `E[i].note`, hardwired to `i` (R21, D27). -/
def Block.noteField (_b : Block) (i : Note) : Note := i

/-- Writes fields of entry `i`. -/
def Block.modify (b : Block) (i : Note) (f : Entry → Entry) : Block :=
  { b with entries := b.entries.set i (f b.entries[i]) }

/-- `E[i].active <- x` (R16). -/
def Block.setActive (b : Block) (i : Note) (x : Bool) : Block := b.modify i fun e => { e with active := x }

/-- `E[i].vel <- x` (R16). -/
def Block.setVel (b : Block) (i : Note) (x : Vel) : Block := b.modify i fun e => { e with vel := x }

/-- `E[i].up <- x` (R16). -/
def Block.setUp (b : Block) (i : Note) (x : Link) : Block := b.modify i fun e => { e with up := x }

/-- `E[i].down <- x` (R16). -/
def Block.setDown (b : Block) (i : Note) (x : Link) : Block := b.modify i fun e => { e with down := x }

/-- `top <- x` (R16). -/
def Block.setTop (b : Block) (x : Link) : Block := { b with top := x }

/-- `if l != NIL then E[l].up <- x`. -/
def Block.setUpAt (b : Block) (l : Link) (x : Link) : Block :=
  match l with
  | none   => b
  | some p => b.setUp p x

/-- `if u = NIL then top <- x else E[u].down <- x` (R80): what stood above now stands above `x`. -/
def Block.setBelow (b : Block) (u : Link) (x : Link) : Block :=
  match u with
  | none   => b.setTop x
  | some p => b.setDown p x

/-- `unlink(i)` (R80): called only when `E[i].active = 1`. -/
def Block.unlink (b : Block) (i : Note) : Block :=
  let u := (b.entry i).up
  let d := (b.entry i).down
  ((((b.setBelow u d).setUpAt d u).setUp i none).setDown i none).setActive i false

/-- `link_top(i)` (R81): called only when `E[i].active = 0`. -/
def Block.linkTop (b : Block) (i : Note) : Block :=
  ((((b.setUp i none).setDown i b.top).setUpAt b.top (some i)).setTop (some i)).setActive i true

/-- PUSH of an in-range note (R82). -/
def Block.push (b : Block) (i : Note) (vel : Vel) : Block :=
  ((if (b.entry i).active then b.unlink i else b).linkTop i).setVel i vel

/-- REMOVE of an in-range note (R83). -/
def Block.remove (b : Block) (i : Note) : Block :=
  if (b.entry i).active then b.unlink i else b

/-- One round of the loop of CLEAR (R84). -/
def Entry.cleared (e : Entry) : Entry :=
  if e.active then { e with active := false, up := none, down := none } else e

/-- CLEAR (R84): the rounds of its loop touch one entry each, so they are one map. -/
def Block.clear (b : Block) : Block :=
  { entries := ⟨⟨b.entries.toList.map Entry.cleared⟩, by simp⟩, top := none }

/-- The notes met by walking `down` from `p`, at most `n` of them: the loop of TOPN (R101) and, with
`n = 128`, the walk of R28. -/
def Block.walk (b : Block) : Nat → Link → List Note
  | 0, _          => []
  | _ + 1, none   => []
  | n + 1, some p => p :: b.walk n (b.entry p).down

/-- The notes TOPN reports (R101). -/
def Block.topNotes (b : Block) (n : BitVec 8) : List Note := b.walk n.toNat b.top

/-- The velocity TOPVEL reports: that of the top entry, 0 when empty (R105). -/
def Block.topVel (b : Block) : Vel :=
  match b.top with
  | none   => 0
  | some p => (b.entry p).vel

/-- Writes the block. -/
def State.setBlock (s : State) (b : Block) : State := { s with block := b }

/-- `emit` (R16) of each of the words, in order: they wait at the response port until the host takes
them (R50). -/
def State.emit (s : State) (ws : List RespWord) : State := { s with waiting := s.waiting ++ ws }

end Sys2Proof.Machine
end

