-- ==== Sys2Proof/Machine/Flags.lean ====
section
/-! DEFINITION. The block has no flag and no condition code (R32). Emptiness is computed from `top`, never
stored. -/

namespace Sys2Proof.Machine

/-- Whether no note is held: `top = NIL` (R32, R104). -/
def Block.isEmpty (b : Block) : Bool := b.top.isNone

end Sys2Proof.Machine
end

