-- ==== Sys2Proof/Machine/Mutate.lean ====
section
/-! DEFINITION. The meanings of PUSH, REMOVE and CLEAR (40_mutate.md). None emits a response word. -/

namespace Sys2Proof.Machine

/-- PUSH (R82): a note of 128 or more is a no-op. -/
def execPush (note : BitVec 8) (vel : Vel) (s : State) : Host.Outcome State Fault Refusal :=
  match noteOperand note with
  | none   => .next s
  | some i => .next (s.setBlock (s.block.push i vel))

/-- REMOVE (R83): a note of 128 or more, or one not held, is a no-op. -/
def execRemove (note : BitVec 8) (s : State) : Host.Outcome State Fault Refusal :=
  match noteOperand note with
  | none   => .next s
  | some i => .next (s.setBlock (s.block.remove i))

/-- CLEAR (R84). -/
def execClear (s : State) : Host.Outcome State Fault Refusal :=
  .next (s.setBlock s.block.clear)

end Sys2Proof.Machine
end

