-- ==== Sys2Proof/Machine/Query.lean ====
section
/-! DEFINITION. The meanings of TOPN, ISEMPTY and TOPVEL (41_query.md). None writes the block (R106). -/

namespace Sys2Proof.Machine

/-- The response words of TOPN for the notes it reports: their count, then the notes (R65, R101). -/
def topnWords (notes : List Note) : List RespWord :=
  response 0x4 (BitVec.ofNat 8 notes.length) :: notes.map fun i => response 0x4 (noteBits i)

/-- TOPN (R101). -/
def execTopn (n : BitVec 8) (s : State) : Host.Outcome State Fault Refusal :=
  .next (s.emit (topnWords (s.block.topNotes n)))

/-- ISEMPTY (R104). -/
def execIsempty (s : State) : Host.Outcome State Fault Refusal :=
  .next (s.emit [response 0x5 (if s.block.isEmpty then 1 else 0)])

/-- TOPVEL (R105). -/
def execTopvel (s : State) : Host.Outcome State Fault Refusal :=
  .next (s.emit [response 0x6 (velBits s.block.topVel)])

end Sys2Proof.Machine
end

