-- ==== Sys2Proof/Syntax.lean ====
section
/-! DEFINITION. The commands of NPS-1 (R63) and the raw fields of a command word (R61). -/

namespace Sys2Proof

/-- One constructor per row of the opcode table (R63). The operand widths are those of R61:
a note or count operand has 8 bits and a velocity 7, so every term is a well-formed command
(R62: a note of 128 to 255 is a legal operand). -/
inductive Instr where
  | push (note : BitVec 8) (vel : Vel)
  | remove (note : BitVec 8)
  | clear
  | topn (n : BitVec 8)
  | isempty
  | topvel
  deriving DecidableEq, Repr

/-- The five fields of format C as they stand in a word, before any check (R61). -/
structure Fields where
  op : BitVec 4
  z1 : BitVec 12
  a  : BitVec 8
  z2 : BitVec 1
  v  : BitVec 7
  deriving DecidableEq, Repr

end Sys2Proof
end

