-- ==== Sys2Proof/Machine/Dispatch.lean ====
section
/-! DEFINITION. `exec`: one arm per command, each one call of its meaning. -/

namespace Sys2Proof.Machine
open Sys2Proof

def exec (i : Instr) (s : State) : Host.Outcome State Fault Refusal :=
  match i with
  | .push note vel => Sys2Proof.Machine.execPush note vel s
  | .remove note => Sys2Proof.Machine.execRemove note s
  | .clear => Sys2Proof.Machine.execClear s
  | .topn n => Sys2Proof.Machine.execTopn n s
  | .isempty => Sys2Proof.Machine.execIsempty s
  | .topvel => Sys2Proof.Machine.execTopvel s

end Sys2Proof.Machine
end

