-- ==== Sys2Proof/WellFormed.lean ====
section
/-! DEFINITION. Which fields of format C spell a command (R61, R66), one named check per clause. -/

namespace Sys2Proof

/-- `op` is one of the six commands; `0x0` and `0x7` to `0xF` are reserved (R63, R66). -/
def Fields.opKnown (f : Fields) : Bool := 1 ≤ f.op.toNat && f.op.toNat ≤ 6

/-- `z1` and `z2` must be zero in every command (R61). -/
def Fields.z1Zero (f : Fields) : Bool := f.z1 == 0

/-- See `Fields.z1Zero`. -/
def Fields.z2Zero (f : Fields) : Bool := f.z2 == 0

/-- `a` must be zero in CLEAR, ISEMPTY and TOPVEL (R61). -/
def Fields.aAllowed (f : Fields) : Bool :=
  f.a == 0 || f.op == 1 || f.op == 2 || f.op == 4

/-- `v` must be zero in every command but PUSH (R61). -/
def Fields.vAllowed (f : Fields) : Bool := f.v == 0 || f.op == 1

/-- The fields of a command; every other word is reserved (R66). -/
def Fields.wellFormed (f : Fields) : Bool :=
  f.opKnown && f.z1Zero && f.z2Zero && f.aAllowed && f.vAllowed

end Sys2Proof
end

