-- ==== Sys2Proof/Decode.lean ====
section
/-! DEFINITION. The decoder (R64), total on every 32-bit word and rejecting by name; the encoder, from the
same layout (R61); the opcode map with its match and mask columns (R63). -/

namespace Sys2Proof

/-- Why a word is reserved (R66): the first check of R64 that it fails. -/
inductive Reserved where
  | z1     -- bits 27:16 are not zero
  | z2     -- bit 7 is not zero
  | a      -- bits 15:8 are not zero in a command without that operand
  | v      -- bits 6:0 are not zero in a command without that operand
  | opcode -- bits 31:28 are `0x0` or `0x7` to `0xF`
  deriving DecidableEq, Repr

/-- The fields of a word (R61). -/
def Fields.ofWord (w : CmdWord) : Fields :=
  { op := w.extractLsb' 28 4
    z1 := w.extractLsb' 16 12
    a  := w.extractLsb' 8 8
    z2 := w.extractLsb' 7 1
    v  := w.extractLsb' 0 7 }

/-- The word with given fields (R61). -/
def Fields.toWord (f : Fields) : CmdWord := f.op ++ f.z1 ++ f.a ++ f.z2 ++ f.v

/-- A command with the operand `a` alone: `v` must be zero (R64). -/
def Fields.withoutV (f : Fields) (i : Instr) : Except Reserved Instr :=
  if f.v ≠ 0 then .error .v else .ok i

/-- A command without operands: `a` and `v` must be zero (R64). -/
def Fields.withoutOperands (f : Fields) (i : Instr) : Except Reserved Instr :=
  if f.a ≠ 0 then .error .a else f.withoutV i

/-- The decoder on the fields of a word, in the order of R64, with the operands of R62. -/
def Fields.decode (f : Fields) : Except Reserved Instr :=
  if f.z1 ≠ 0 then .error .z1
  else if f.z2 ≠ 0 then .error .z2
  else if f.op = 0x1 then .ok (.push f.a f.v)
  else if f.op = 0x2 then f.withoutV (.remove f.a)
  else if f.op = 0x3 then f.withoutOperands .clear
  else if f.op = 0x4 then f.withoutV (.topn f.a)
  else if f.op = 0x5 then f.withoutOperands .isempty
  else if f.op = 0x6 then f.withoutOperands .topvel
  else .error .opcode

/-- The decoder (R64). -/
def decode (w : CmdWord) : Except Reserved Instr := (Fields.ofWord w).decode

/-- The command selector of a command (R63), which is also the tag of its response words (R65). -/
def Instr.opcode : Instr → BitVec 4
  | .push _ _ => 0x1
  | .remove _ => 0x2
  | .clear    => 0x3
  | .topn _   => 0x4
  | .isempty  => 0x5
  | .topvel   => 0x6

/-- The fields of a command (R61, R63). -/
def Instr.fields (i : Instr) : Fields :=
  match i with
  | .push note vel => { op := i.opcode, z1 := 0, a := note, z2 := 0, v := vel }
  | .remove note   => { op := i.opcode, z1 := 0, a := note, z2 := 0, v := 0 }
  | .clear         => { op := i.opcode, z1 := 0, a := 0, z2 := 0, v := 0 }
  | .topn n        => { op := i.opcode, z1 := 0, a := n, z2 := 0, v := 0 }
  | .isempty       => { op := i.opcode, z1 := 0, a := 0, z2 := 0, v := 0 }
  | .topvel        => { op := i.opcode, z1 := 0, a := 0, z2 := 0, v := 0 }

/-- The encoder: the one word of a command (R61, R63). -/
def encode (i : Instr) : CmdWord := i.fields.toWord

/-- One row of the opcode map (R63): a word `w` is a command of the row when `w AND mask = pattern`. -/
structure OpcodeRow where
  op      : BitVec 4
  pattern : CmdWord
  mask    : CmdWord
  deriving DecidableEq, Repr

/-- The match and mask columns of R63. -/
def opcodeRows : List OpcodeRow :=
  [ { op := 0x1, pattern := 0x10000000, mask := 0xFFFF0080 },
    { op := 0x2, pattern := 0x20000000, mask := 0xFFFF00FF },
    { op := 0x3, pattern := 0x30000000, mask := 0xFFFFFFFF },
    { op := 0x4, pattern := 0x40000000, mask := 0xFFFF00FF },
    { op := 0x5, pattern := 0x50000000, mask := 0xFFFFFFFF },
    { op := 0x6, pattern := 0x60000000, mask := 0xFFFFFFFF } ]

/-- `w` is a command of the row (R63). -/
def OpcodeRow.matches (r : OpcodeRow) (w : CmdWord) : Bool := w &&& r.mask == r.pattern

/-- The command read from a table row's word, numbered as spec/opcode_table.json numbers it: a row is one
32-bit word and bit 0 is its least significant bit. No command is longer (R60), so a longer one is none
(log 18). -/
def decodeTableWord (nbits w : Nat) : Option Instr :=
  if nbits ≤ 32 then (decode (BitVec.ofNat 32 w)).toOption else none

end Sys2Proof
end

