-- ==== Sys2Proof/Machine/Invariant.lean ====
section
/-! DEFINITION. The invariant INV (R25), as the spec writes it and as a check that can be run. -/

namespace Sys2Proof.Machine

/-- The clauses of R25 for one sequence `t` of notes, top first. `E[t_k].down` of the last and
`E[t_k].up` of the first are `NIL`; `t[k]?` is `none`, which is `NIL`, past the end. -/
structure Block.InvFor (b : Block) (t : List Note) : Prop where
  /-- The indices of the sequence are distinct. -/
  distinct : t.Nodup
  /-- Their set is the set of active entries. -/
  members : ∀ i : Note, i ∈ t ↔ (b.entry i).active = true
  /-- `top = (m > 0) ? t_0 : NIL`. -/
  top_eq : b.top = if 0 < t.length then t[0]? else none
  /-- `E[t_k].up = (k > 0) ? t_(k-1) : NIL`. -/
  up_eq : ∀ (k : Nat) (h : k < t.length), (b.entry t[k]).up = if 0 < k then t[k - 1]? else none
  /-- `E[t_k].down = (k < m - 1) ? t_(k+1) : NIL`. -/
  down_eq : ∀ (k : Nat) (h : k < t.length),
    (b.entry t[k]).down = if k < t.length - 1 then t[k + 1]? else none
  /-- Inactive entries have `NIL` links. -/
  inactive : ∀ i : Note, (b.entry i).active = false → (b.entry i).up = none ∧ (b.entry i).down = none

/-- INV (R25). -/
def Block.Inv (b : Block) : Prop := ∃ t : List Note, b.InvFor t

/-- The notes of `L` in R28: the walk from `top`, which has at most 128 steps when INV holds. -/
def Block.held (b : Block) : List Note := b.walk 128 b.top

/-- The entries of `t` are linked in this order, below `above`. -/
def Block.linkedBelow (b : Block) (above : Link) : List Note → Bool
  | []     => true
  | i :: t => (b.entry i).up == above && (b.entry i).down == t.head? && b.linkedBelow (some i) t

/-- Whether entry `i` is active exactly when it is in `t`, and has `NIL` links when it is not. -/
def Block.entryFits (b : Block) (t : List Note) (i : Note) : Bool :=
  if t.contains i then (b.entry i).active
  else !(b.entry i).active && (b.entry i).up.isNone && (b.entry i).down.isNone

/-- INV as a check: the walk from `top` is the sequence of R25. -/
def Block.invCheck (b : Block) : Bool :=
  let t := b.held
  decide t.Nodup && (b.top == t.head?) && b.linkedBelow none t && (List.finRange 128).all (b.entryFits t)

end Sys2Proof.Machine
end

