-- ==== Sys2Proof/Config.lean ====
section
/-! DEFINITION. What the spec leaves to the implementation, as constants without a body: nothing in
Lean can evaluate one, so a claim that holds, holds whatever they are. -/

namespace Sys2Proof.Config

/-- Free value: the velocity of an entry after a reset event, which R36 and U2 leave unspecified.
The first argument is the state's `freeCount`, fresh for every reset event (log 5). -/
opaque freeVel : Nat → Note → Vel

/-- Free value: whether response words not yet taken are lost when the block is reset, which the spec
does not state. The argument is the state's `freeCount` (log 6). -/
opaque resetDropsResponses : Nat → Bool

/-- The open parameter `N_VOICES` less one, so that `1 ≤ nVoices ≤ 255` (R12, D24; log 12). -/
opaque nVoicesLessOne : Fin 255

/-- The open parameter `N_VOICES` (R12, D24). -/
def nVoices : Nat := nVoicesLessOne.val + 1

/-- The open parameter `CMD_LATENCY`, in clock cycles; no rule reads it (R14, R148, D21; log 12). -/
opaque cmdLatency : Instr → Nat

/-- The open parameter `NPS_PORT_BASE`; no rule reads it (R46, D2; log 12). -/
opaque npsPortBase : Nat

end Sys2Proof.Config
end

