-- ==== Sys2Proof/Machine/Reset.lean ====
section
/-! DEFINITION. What the reset input and power-up do (R140, R131). -/

namespace Sys2Proof.Machine

/-- The block after a reset event: R36, with a free value for each velocity (log 5). -/
def Block.afterReset (n : Nat) : Block :=
  { entries := ⟨⟨(List.finRange 128).map fun i => { Entry.reset with vel := Config.freeVel n i }⟩, by simp⟩
    top := none }

/-- Resets the block. Whether words not yet taken are lost is open (log 6). -/
def State.resetBlock (s : State) : State :=
  { s with
    block := Block.afterReset s.freeCount
    waiting := if Config.resetDropsResponses s.freeCount then [] else s.waiting
    freeCount := s.freeCount + 1 }

/-- The reset input takes a level: while it is asserted the block is in its reset state (R140). -/
def State.setResetLine (s : State) (asserted : Bool) : State :=
  if asserted then { s.resetBlock with resetLine := true } else { s with resetLine := false }

end Sys2Proof.Machine
end

