-- ==== Sys2Proof/Machine/Fetch.lean ====
section
/-! DEFINITION. How the machine comes to its next command: the block executes no instruction stream (R31), it
performs each command word the host sends (R146). -/

namespace Sys2Proof.Machine

/-- What the next host event gives. -/
inductive Fetched where
  /-- A command to perform, in the state with its word taken from the port. -/
  | run (i : Instr) (s : State)
  /-- No command: the event's whole effect. -/
  | done (s : State)
  /-- The event has no meaning. -/
  | stop (r : Refusal)
  deriving DecidableEq, Repr

/-- The host takes up to `k` waiting words, oldest first (R50; log 2). -/
def State.takeResponses (s : State) (k : Nat) : State :=
  { s with delivered := s.delivered ++ s.waiting.take k, waiting := s.waiting.drop k }

/-- A command word at the port: accepted from the main loop (R48), while reset is not asserted (R142) and
every earlier response word is taken (R50), if it decodes (R66). Which refusal is named first is a
DESIGN CHOICE (log 8). -/
def acceptCommand (issuer : Issuer) (w : CmdWord) (s : State) : Fetched :=
  if issuer = .interruptHandler then .stop .commandFromInterrupt
  else if s.resetLine then .stop .commandDuringReset
  else if s.waiting ≠ [] then .stop .responseNotTaken
  else match decode w with
    | .error _ => .stop .reservedWord
    | .ok i    => .run i s

/-- One host event (R147), in the state with the event taken from the list. Waiting words can be taken at any
level of the reset input: DESIGN CHOICE (log 21). What each level of it does: log 20. -/
def performEvent (ev : HostEvent) (s : State) : Fetched :=
  match ev with
  | .command issuer w => acceptCommand issuer w s
  | .take k           => .done (s.takeResponses k)
  | .resetInput l     => .done (s.setResetLine l)
  | .powerUp          => .done s.resetBlock
  | .timerInterrupt   => .done s

/-- The next host event; with none, the passive block stays as it is (R129; log 10). A state that
violates INV is refused (R26; log 7). -/
def fetch (s : State) : Fetched :=
  if s.block.invCheck then
    match s.inputs with
    | []         => .done s
    | ev :: rest => performEvent ev { s with inputs := rest }
  else .stop .launchViolatesInv

/-- Puts a command word where the next step takes it: the main loop has taken every response word, the
reset input is released, and the word is the next event. -/
def State.withNextCommand (s : State) (w : CmdWord) : State :=
  { s with
    inputs := .command .mainLoop w :: s.inputs
    resetLine := false
    delivered := s.delivered ++ s.waiting
    waiting := [] }

end Sys2Proof.Machine
end

