-- ==== Sys2Proof/Machine/Step.lean ====
section
/-! DEFINITION. One step: the next host event; a command word runs its command as one atomic
transition (R44, R49). -/

namespace Sys2Proof.Machine

/-- One step. -/
def step (s : State) : Host.Outcome State Fault Refusal :=
  match fetch s with
  | .run i s' => exec i s'
  | .done s'  => .next s'
  | .stop r   => .refused r

/-- `s` with the command word `w` as its next event (log 1). A command is one 32-bit word (R60), so
`nbits` says nothing more. -/
def State.withFetchWord (s : State) (_nbits w : Nat) : State := s.withNextCommand (BitVec.ofNat 32 w)

end Sys2Proof.Machine
end

