-- ==== Sys2Proof/Machine/Abstract.lean ====
section
/-! DEFINITION. The abstract view `(L, V)` (R28) and the commands on it (R87 to R89, R108 to R110). -/

namespace Sys2Proof.Machine

/-- The abstract view: the held notes, top first, and the velocities. The spec reads `V` only at notes of
`L` (R28, R29); here it has the entry's velocity at every note (log 17). -/
structure Abs where
  held : List Note
  vel  : Note → Vel

/-- `alpha` (R28). -/
def Block.alpha (b : Block) : Abs := { held := b.held, vel := fun i => (b.entry i).vel }

/-- Two abstract views are the same: `V` is compared only at the notes of `L` (R90). -/
def Abs.Same (x y : Abs) : Prop := x.held = y.held ∧ ∀ i ∈ x.held, x.vel i = y.vel i

/-- PUSH on the abstract view (R87). -/
def Abs.push (x : Abs) (note : BitVec 8) (vel : Vel) : Abs :=
  match noteOperand note with
  | none   => x
  | some i => { held := i :: x.held.erase i, vel := fun j => if j = i then vel else x.vel j }

/-- REMOVE on the abstract view (R88). -/
def Abs.remove (x : Abs) (note : BitVec 8) : Abs :=
  match noteOperand note with
  | none   => x
  | some i => { x with held := x.held.erase i }

/-- CLEAR on the abstract view (R89). -/
def Abs.clear (x : Abs) : Abs := { x with held := [] }

/-- The response data of TOPN on the abstract view: `[ |L.take n| ] ++ L.take n` (R108). -/
def Abs.topnData (x : Abs) (n : BitVec 8) : List (BitVec 8) :=
  BitVec.ofNat 8 (x.held.take n.toNat).length :: (x.held.take n.toNat).map noteBits

/-- The response data of ISEMPTY on the abstract view (R109). -/
def Abs.isemptyData (x : Abs) : BitVec 8 := if x.held = [] then 1 else 0

/-- The response data of TOPVEL on the abstract view (R110). -/
def Abs.topvelData (x : Abs) : BitVec 8 :=
  match x.held with
  | []     => 0
  | i :: _ => velBits (x.vel i)

/-- The abstract view after a command (R87 to R89; a query changes nothing, R106). -/
def Abs.after (x : Abs) (i : Instr) : Abs :=
  match i with
  | .push note vel => x.push note vel
  | .remove note   => x.remove note
  | .clear         => x.clear
  | .topn _        => x
  | .isempty       => x
  | .topvel        => x

/-- The response words of a command on the abstract view (R65, R108 to R110). -/
def Abs.answer (x : Abs) (i : Instr) : List RespWord :=
  match i with
  | .push _ _ => []
  | .remove _ => []
  | .clear    => []
  | .topn n   => (x.topnData n).map (response i.opcode)
  | .isempty  => [response i.opcode x.isemptyData]
  | .topvel   => [response i.opcode x.topvelData]

end Sys2Proof.Machine
end

