-- ==== Sys2Proof/Machine/Assembler.lean ====
section
/-! DEFINITION. The assembler syntax of R68: one command a line. The characters are given as a list.
What counts as a space, and that a line may hold no command, are DESIGN CHOICES (log 15). -/

namespace Sys2Proof.Machine

/-- A token of a line. -/
inductive Token where
  | word (cs : List Char)
  | comma
  deriving DecidableEq, Repr

/-- Why a line is refused (R68). -/
inductive AsmError where
  | unknownMnemonic    -- not one of the six mnemonics
  | badOperands        -- not the operands of its mnemonic
  | badNumber          -- an operand that is no decimal or `0x` hexadecimal number
  | operandOutOfRange  -- an operand outside its field's range
  deriving DecidableEq, Repr

/-- Ends a word: `acc` holds its characters, the last first. -/
def endWord (acc : List Char) (rest : List Token) : List Token :=
  if acc.isEmpty then rest else .word acc.reverse :: rest

/-- The tokens of a line; a comment runs from `;` to the end of the line (R68). -/
def tokens (acc : List Char) : List Char → List Token
  | []      => endWord acc []
  | c :: cs =>
    if c = ';' then endWord acc []
    else if c = ' ' ∨ c = '\t' ∨ c = '\r' then endWord acc (tokens [] cs)
    else if c = ',' then endWord acc (.comma :: tokens [] cs)
    else tokens (c :: acc) cs

/-- The value of a digit in the given base. -/
def digitValue (base : Nat) (c : Char) : Option Nat :=
  let v := if '0' ≤ c ∧ c ≤ '9' then some (c.toNat - '0'.toNat)
    else if 'a' ≤ c ∧ c ≤ 'f' then some (c.toNat - 'a'.toNat + 10)
    else if 'A' ≤ c ∧ c ≤ 'F' then some (c.toNat - 'A'.toNat + 10)
    else none
  match v with
  | none   => none
  | some d => if d < base then some d else none

/-- The value of a string of digits that follows the digits of `acc`. -/
def digitsValue (base : Nat) (acc : Nat) : List Char → Option Nat
  | []      => some acc
  | c :: cs =>
    match digitValue base c with
    | none   => none
    | some d => digitsValue base (acc * base + d) cs

/-- A number: decimal, or hexadecimal after `0x` (R68). -/
def numberValue (cs : List Char) : Option Nat :=
  match cs with
  | [] => none
  | ['0', 'x'] => none
  | '0' :: 'x' :: ds => digitsValue 16 0 ds
  | ds => digitsValue 10 0 ds

/-- An operand of a field of `w` bits, refused outside the field's range (R68). -/
def asmOperand (w : Nat) (cs : List Char) : Except AsmError (BitVec w) :=
  match numberValue cs with
  | none   => .error .badNumber
  | some n => if n < 2 ^ w then .ok (BitVec.ofNat w n) else .error .operandOutOfRange

/-- A command without operands. -/
def asmPlain (i : Instr) (ops : List Token) : Except AsmError Instr :=
  match ops with
  | [] => .ok i
  | _  => .error .badOperands

/-- A command with one 8-bit operand. -/
def asmUnary (mk : BitVec 8 → Instr) (ops : List Token) : Except AsmError Instr :=
  match ops with
  | [.word a] => (asmOperand 8 a).map mk
  | _         => .error .badOperands

/-- PUSH with its note and velocity. -/
def asmPush (ops : List Token) : Except AsmError Instr :=
  match ops with
  | [.word a, .comma, .word v] =>
    match asmOperand 8 a, asmOperand 7 v with
    | .ok note, .ok vel => .ok (.push note vel)
    | .error e, _       => .error e
    | .ok _, .error e   => .error e
  | _ => .error .badOperands

/-- The command of a mnemonic and its operands (R68). -/
def asmCommand (m : List Char) (ops : List Token) : Except AsmError Instr :=
  if m = ['P', 'U', 'S', 'H'] then asmPush ops
  else if m = ['R', 'E', 'M', 'O', 'V', 'E'] then asmUnary .remove ops
  else if m = ['C', 'L', 'E', 'A', 'R'] then asmPlain .clear ops
  else if m = ['T', 'O', 'P', 'N'] then asmUnary .topn ops
  else if m = ['I', 'S', 'E', 'M', 'P', 'T', 'Y'] then asmPlain .isempty ops
  else if m = ['T', 'O', 'P', 'V', 'E', 'L'] then asmPlain .topvel ops
  else .error .unknownMnemonic

/-- The command of one line, none for a line that holds none (R68). -/
def assembleLine (line : List Char) : Except AsmError (Option Instr) :=
  match tokens [] line with
  | []             => .ok none
  | .comma :: _    => .error .unknownMnemonic
  | .word m :: ops => (asmCommand m ops).map some

end Sys2Proof.Machine
end

