-- ==== Sys2Proof/Machine/Carrier.lean ====
section
/-! DEFINITION. Words on a byte-serial carrier: the most significant byte first (R42, D16; log 16). -/

namespace Sys2Proof.Machine

/-- A command word as the four bytes a carrier sends (R42). -/
def commandBytes (w : CmdWord) : List (BitVec 8) :=
  [w.extractLsb' 24 8, w.extractLsb' 16 8, w.extractLsb' 8 8, w.extractLsb' 0 8]

/-- The command word of four bytes, as they arrive. -/
def commandOfBytes (bs : List (BitVec 8)) : Option CmdWord :=
  match bs with
  | [b3, b2, b1, b0] => some (b3 ++ b2 ++ b1 ++ b0)
  | _ => none

/-- A response word as the two bytes a carrier sends (R42). -/
def responseBytes (w : RespWord) : List (BitVec 8) := [w.extractLsb' 8 8, w.extractLsb' 0 8]

/-- The response word of two bytes, as they arrive. -/
def responseOfBytes (bs : List (BitVec 8)) : Option RespWord :=
  match bs with
  | [b1, b0] => some (b1 ++ b0)
  | _ => none

end Sys2Proof.Machine
end

