-- ==== Sys2Proof/Machine/Consumers.lean ====
section
/-! DEFINITION. The contracts of the block's consumers, all in the main loop (R6): what they send and what they
do with the answer, as far as the spec says it (R102, R111, R112, R144). -/

namespace Sys2Proof.Machine

/-- A command the main loop sends. -/
def mainLoopSends (i : Instr) : HostEvent := .command .mainLoop (encode i)

/-- The voice-dispatcher's one command, `TOPN N_VOICES` (R6, R111). -/
def dispatcherRead : Instr := .topn (BitVec.ofNat 8 Config.nVoices)

/-- The notes of a TOPN response: the words after the count (R102). -/
def responseNotes (ws : List RespWord) : List (BitVec 8) := (ws.drop 1).map responseData

/-- The count of a TOPN response, its first word (R65). -/
def responseCount (ws : List RespWord) : Nat :=
  match ws with
  | []     => 0
  | w :: _ => (responseData w).toNat

/-- Stores the notes at positions `k`, `k + 1`, … of the buffer. -/
def storeFrom (k : Nat) : List (BitVec 8) → List (BitVec 8) → List (BitVec 8)
  | [], buf          => buf
  | note :: rest, buf => storeFrom (k + 1) rest (buf.set k note)

/-- The caller's buffer after a TOPN response: word `k` (from 1) at position `k - 1`, the other positions as
they were (R102, D28). A position past the buffer's end is not written (log 19). -/
def callerStore (buf : List (BitVec 8)) (ws : List RespWord) : List (BitVec 8) :=
  storeFrom 0 (responseNotes ws) buf

/-- The expression output's two queries, for the velocity and the gate (R112). -/
def expressionReads : List Instr := [.topvel, .isempty]

/-- Whether a command changes the stack (R4, R37). -/
def isMutating (i : Instr) : Bool :=
  match i with
  | .push _ _ => true
  | .remove _ => true
  | .clear    => true
  | .topn _   => false
  | .isempty  => false
  | .topvel   => false

/-- One control cycle of the main loop: its mutating commands, then the voice-dispatcher's read, whose
words are all taken (R144, R111). A response has at most 256 words. -/
def controlCycle (mutations : List Instr) : List HostEvent :=
  (mutations.filter isMutating).map mainLoopSends ++ [mainLoopSends dispatcherRead, .take 256]

end Sys2Proof.Machine
end

