-- ==== Sys2Proof/Machine/History.lean ====
section
/-! DEFINITION. Sequences of commands, and the recency order of R30 in terms of them. -/

namespace Sys2Proof.Machine

/-- The commands of a list, performed one after the other (R49). -/
def execAll : List Instr → State → Host.Outcome State Fault Refusal
  | [], s     => .next s
  | i :: is, s =>
    match exec i s with
    | .next t    => execAll is t
    | .fault r   => .fault r
    | .refused r => .refused r

/-- How many commands ago note `i` was last pushed, where no REMOVE of `i` and no CLEAR came since (R30).
`past` is the history of commands, the latest first. -/
def sincePush (i : Note) : List Instr → Option Nat
  | [] => none
  | .push note _ :: past => if noteOperand note = some i then some 0 else (sincePush i past).map (· + 1)
  | .remove note :: past => if noteOperand note = some i then none else (sincePush i past).map (· + 1)
  | .clear :: _ => none
  | .topn _ :: past => (sincePush i past).map (· + 1)
  | .isempty :: past => (sincePush i past).map (· + 1)
  | .topvel :: past => (sincePush i past).map (· + 1)

/-- `i` was pushed more recently than `j`, and both pushes stand (R30). -/
def pushedLater (past : List Instr) (i j : Note) : Prop :=
  ∃ p q, sincePush i past = some p ∧ sincePush j past = some q ∧ p < q

end Sys2Proof.Machine
end

