-- ==== Sys2Proof/Safety.lean ====
section
/-! DEFINITION. What a safe step is, what the host owes the block (R147), and when a run has ended (R146). -/

namespace Sys2Proof.Safety

open Sys2Proof.Machine

/-- The host's duties on the event it performs next (R147): a command word is one that decodes (R66), sent by
the main loop (R145), not while reset is asserted (R142), after every response word was taken (R50).
The other events are always allowed, taking words while reset is asserted among them: DESIGN CHOICE
(log 21). -/
def hostDuty (s : State) : Bool :=
  match s.inputs with
  | .command issuer w :: _ =>
    issuer == .mainLoop && !s.resetLine && s.waiting.isEmpty && (decode w).toBool
  | _ => true

/-- The step has a transition: it neither faults nor is refused (R132). -/
def CanStep (s : State) : Prop := ∃ t, step s = .next t

/-- The run has ended: every host event is performed and the last response word delivered (R146). With a reset
event in the list, the whole list counts as one run, and a run whose last words that reset lost has ended too:
DESIGN CHOICE (log 22). -/
def runEnded (s : State) : Bool := s.inputs.isEmpty && s.waiting.isEmpty

/-- The result of a run: the final state of the block and the concatenated responses (R146). With a reset event
in the list, these include the words taken before it: DESIGN CHOICE (log 22). -/
def runResult (s : State) : Block × List RespWord := (s.block, s.delivered)

end Sys2Proof.Safety
end

