-- ==== Sys2Proof/Certificates/Slice0/Obligations.lean ====
section
/-! DEFINITION. The statements for the provers. Where a docstring says "the model's choice" it names the log
entry; every other clause is the spec's. -/

open Sys2Proof Sys2Proof.Machine Sys2Proof.Safety

/-! ## Encoding -/

/-- Decoding the word of a command gives the command, with every operand at every value (30_encoding.md
sections 1 and 2). -/
def Obligations.DecodeOfEncodeIsTheCommand : Prop :=
  ∀ i : Instr, decode (encode i) = .ok i

/-- A word that decodes to a command is that command's one word: no bit of a word is ignored
(30_encoding.md sections 1 and 2). -/
def Obligations.EncodeOfDecodeIsTheWord : Prop :=
  ∀ (w : CmdWord) (i : Instr), decode w = .ok i → encode i = w

/-- The decoder agrees with the match and mask columns of the opcode map row for row (the derived last
sentence of R64, in 30_encoding.md section 2). -/
def Obligations.DecoderAgreesWithOpcodeMap : Prop :=
  ∀ (w : CmdWord) (op : BitVec 4),
    (∃ i, decode w = .ok i ∧ i.opcode = op) ↔ (∃ r ∈ opcodeRows, r.op = op ∧ w &&& r.mask = r.pattern)

/-- No word matches two rows of the opcode map (R63's closing paragraph, 30_encoding.md section 2). -/
def Obligations.NoWordMatchesTwoRows : Prop :=
  ∀ (w : CmdWord), ∀ r ∈ opcodeRows, ∀ r' ∈ opcodeRows,
    w &&& r.mask = r.pattern → w &&& r'.mask = r'.pattern → r = r'

/-- The words that do not decode are exactly those with an unknown opcode or a nonzero bit in a
must-be-zero field (30_encoding.md section 4), each said by its arithmetic value. -/
def Obligations.ReservedWordsAreExactlyThese : Prop :=
  ∀ w : CmdWord,
    (∃ e, decode w = .error e) ↔
      (w.toNat / 2 ^ 28 = 0 ∨ 7 ≤ w.toNat / 2 ^ 28 ∨
       w.toNat / 2 ^ 16 % 2 ^ 12 ≠ 0 ∨ w.toNat / 2 ^ 7 % 2 ≠ 0 ∨
       (w.toNat % 2 ^ 7 ≠ 0 ∧ w.toNat / 2 ^ 28 ≠ 1) ∨
       (w.toNat / 2 ^ 8 % 2 ^ 8 ≠ 0 ∧
         (w.toNat / 2 ^ 28 = 3 ∨ w.toNat / 2 ^ 28 = 5 ∨ w.toNat / 2 ^ 28 = 6)))

/-- The operands of a command are the unsigned fields `w[15:8]` and `w[6:0]` of its word, and a note of 128
to 255 is a legal operand whose command is a no-op (R62). -/
def Obligations.OperandsAreTheFields : Prop :=
  (∀ (w : CmdWord) (note : BitVec 8) (vel : Vel), decode w = .ok (.push note vel) →
      note.toNat = w.toNat / 2 ^ 8 % 2 ^ 8 ∧ vel.toNat = w.toNat % 2 ^ 7) ∧
  (∀ (w : CmdWord) (note : BitVec 8), decode w = .ok (.remove note) →
      note.toNat = w.toNat / 2 ^ 8 % 2 ^ 8) ∧
  (∀ (w : CmdWord) (n : BitVec 8), decode w = .ok (.topn n) → n.toNat = w.toNat / 2 ^ 8 % 2 ^ 8) ∧
  (∀ (note : BitVec 8) (vel : Vel), 128 ≤ note.toNat →
      (∃ w, decode w = .ok (.push note vel)) ∧ (∃ w, decode w = .ok (.remove note)) ∧
      ∀ s : State, exec (.push note vel) s = .next s ∧ exec (.remove note) s = .next s)

/-- The worked encodings of R70 and two words of 95_test_vectors.md section 2.1 that must be refused. -/
def Obligations.WorkedEncodingsDecode : Prop :=
  decode 0x10003C64 = .ok (.push 60 100) ∧ decode 0x10004050 = .ok (.push 64 80) ∧
  decode 0x20003C00 = .ok (.remove 60) ∧ decode 0x2000C800 = .ok (.remove 200) ∧
  decode 0x30000000 = .ok .clear ∧ decode 0x40000200 = .ok (.topn 2) ∧
  decode 0x50000000 = .ok .isempty ∧ decode 0x60000000 = .ok .topvel ∧
  decode 0x00000000 = .error .opcode ∧ decode 0x30000001 = .error .v

/-- A response word has its tag in bits 15:12, zeros in bits 11:8 and its data in bits 7:0
(30_encoding.md section 3). -/
def Obligations.ResponseWordLayout : Prop :=
  ∀ (tag : BitVec 4) (data : BitVec 8),
    (response tag data).toNat / 2 ^ 12 = tag.toNat ∧ (response tag data).toNat / 2 ^ 8 % 2 ^ 4 = 0 ∧
    (response tag data).toNat % 2 ^ 8 = data.toNat ∧
    responseTag (response tag data) = tag ∧ responseData (response tag data) = data

/-- A carrier sends the most significant byte first, and the word is got back from its bytes
(20_memory.md section 2). -/
def Obligations.CarrierSendsMostSignificantByteFirst : Prop :=
  (∀ w : CmdWord, (commandBytes w).map BitVec.toNat =
      [w.toNat / 2 ^ 24, w.toNat / 2 ^ 16 % 2 ^ 8, w.toNat / 2 ^ 8 % 2 ^ 8, w.toNat % 2 ^ 8] ∧
    commandOfBytes (commandBytes w) = some w) ∧
  (∀ w : RespWord, (responseBytes w).map BitVec.toNat = [w.toNat / 2 ^ 8, w.toNat % 2 ^ 8] ∧
    responseOfBytes (responseBytes w) = some w)

/-- The 8-bit value of a link: 0 to 127 names an entry, `0xFF` is `NIL`, and `0x80` to `0xFE` is none
(00_scope.md section 3). That a link is held as an optional note is the model's choice (log 3). -/
def Obligations.LinkValuesAreNotesOrNil : Prop :=
  (∀ l : Link, linkOfBits (linkBits l) = some l) ∧
  (∀ i : Note, (linkBits (some i)).toNat = i.val) ∧ linkBits none = 0xFF ∧
  (∀ w : BitVec 8, linkOfBits w = none ↔ 128 ≤ w.toNat ∧ w.toNat ≤ 254)

/-- A line of the assembler with an operand outside its field's range is refused, a note or `n` above 255 or a
velocity above 127, and with every operand in range it gives the command with these operands; a mnemonic not
in the list is refused (30_encoding.md section 5). A field of any width takes exactly the numbers that fit.
Which tokens a line has and which characters spell a number (`tokens`, `numberValue`) is the model's choice
(log 15). -/
def Obligations.AssemblerRefusesOutOfRangeOperands : Prop :=
  (∀ (w : Nat) (cs : List Char) (x : BitVec w), asmOperand w cs = .ok x ↔ numberValue cs = some x.toNat) ∧
  (∀ (line a v : List Char) (n m : Nat),
    tokens [] line = [.word ['P', 'U', 'S', 'H'], .word a, .comma, .word v] →
    numberValue a = some n → numberValue v = some m →
    (n ≤ 255 → m ≤ 127 → assembleLine line = .ok (some (.push (BitVec.ofNat 8 n) (BitVec.ofNat 7 m)))) ∧
    (255 < n ∨ 127 < m → assembleLine line = .error .operandOutOfRange)) ∧
  (∀ (line a : List Char) (n : Nat),
    tokens [] line = [.word ['R', 'E', 'M', 'O', 'V', 'E'], .word a] → numberValue a = some n →
    (n ≤ 255 → assembleLine line = .ok (some (.remove (BitVec.ofNat 8 n)))) ∧
    (255 < n → assembleLine line = .error .operandOutOfRange)) ∧
  (∀ (line a : List Char) (n : Nat),
    tokens [] line = [.word ['T', 'O', 'P', 'N'], .word a] → numberValue a = some n →
    (n ≤ 255 → assembleLine line = .ok (some (.topn (BitVec.ofNat 8 n)))) ∧
    (255 < n → assembleLine line = .error .operandOutOfRange)) ∧
  (∀ (line m : List Char) (ops : List Token), tokens [] line = .word m :: ops →
    m ∉ [['P', 'U', 'S', 'H'], ['R', 'E', 'M', 'O', 'V', 'E'], ['C', 'L', 'E', 'A', 'R'], ['T', 'O', 'P', 'N'],
      ['I', 'S', 'E', 'M', 'P', 'T', 'Y'], ['T', 'O', 'P', 'V', 'E', 'L']] →
    assembleLine line = .error .unknownMnemonic)

/-! ## The mutating commands -/

/-- PUSH on the abstract view (R87). -/
def Obligations.PushOnAbstractView : Prop :=
  ∀ (s : State) (note : BitVec 8) (vel : Vel), s.block.Inv →
    ∃ t, exec (.push note vel) s = .next t ∧
      (128 ≤ note.toNat → t.block.alpha = s.block.alpha) ∧
      (∀ i : Note, i.val = note.toNat →
        t.block.alpha.held = i :: s.block.alpha.held.erase i ∧
        ∀ j, t.block.alpha.vel j = if j = i then vel else s.block.alpha.vel j)

/-- REMOVE on the abstract view (R88). -/
def Obligations.RemoveOnAbstractView : Prop :=
  ∀ (s : State) (note : BitVec 8), s.block.Inv →
    ∃ t, exec (.remove note) s = .next t ∧
      (128 ≤ note.toNat → t.block.alpha = s.block.alpha) ∧
      (∀ i : Note, i.val = note.toNat → t.block.alpha.held = s.block.alpha.held.erase i) ∧
      t.block.alpha.vel = s.block.alpha.vel

/-- CLEAR on the abstract view (R89). -/
def Obligations.ClearOnAbstractView : Prop :=
  ∀ s : State, s.block.Inv →
    ∃ t, exec .clear s = .next t ∧ t.block.alpha.held = [] ∧ t.block.alpha.vel = s.block.alpha.vel

/-- PUSH of a note that is not held links it at the top, field by field (R81), and writes its velocity
(the last line of R82). -/
def Obligations.PushLinksNewNoteAtTop : Prop :=
  ∀ (s : State) (note : BitVec 8) (vel : Vel) (i : Note), s.block.Inv → i.val = note.toNat →
    (s.block.entry i).active = false →
    ∃ t, exec (.push note vel) s = .next t ∧ t.block.top = some i ∧
      t.block.entry i = { active := true, vel := vel, up := none, down := s.block.top } ∧
      (∀ j, s.block.top = some j → t.block.entry j = { s.block.entry j with up := some i }) ∧
      (∀ j, j ≠ i → s.block.top ≠ some j → t.block.entry j = s.block.entry j)

/-- PUSH of the note that is already the top rewrites its velocity and nothing else (corner case (c) of R82,
40_mutate.md section 2). -/
def Obligations.PushOfTheTopRewritesItsVelocityOnly : Prop :=
  ∀ (s : State) (note : BitVec 8) (vel : Vel) (i : Note), s.block.Inv → i.val = note.toNat →
    s.block.top = some i →
    ∃ t, exec (.push note vel) s = .next t ∧ t.block.top = s.block.top ∧
      t.block.entry i = { s.block.entry i with vel := vel } ∧ ∀ j, j ≠ i → t.block.entry j = s.block.entry j

/-- A re-press moves a held note to the top, keeps the number of held notes and makes no duplicate; a PUSH of
another note adds one (the derived rule R86, 40_mutate.md section 5). -/
def Obligations.RePressKeepsTheCount : Prop :=
  ∀ (s : State) (note : BitVec 8) (vel : Vel) (i : Note), s.block.Inv → i.val = note.toNat →
    ∃ t, exec (.push note vel) s = .next t ∧ t.block.held[0]? = some i ∧ t.block.held.Nodup ∧
      t.block.held.length = if i ∈ s.block.held then s.block.held.length else s.block.held.length + 1

/-- REMOVE of a held note unlinks it and relinks its neighbours, field by field (R80). -/
def Obligations.RemoveUnlinksAndRelinks : Prop :=
  ∀ (s : State) (note : BitVec 8) (i : Note), s.block.Inv → i.val = note.toNat →
    (s.block.entry i).active = true →
    ∃ t, exec (.remove note) s = .next t ∧
      t.block.top = (if (s.block.entry i).up = none then (s.block.entry i).down else s.block.top) ∧
      t.block.entry i = { active := false, vel := (s.block.entry i).vel, up := none, down := none } ∧
      (∀ u, (s.block.entry i).up = some u →
        t.block.entry u = { s.block.entry u with down := (s.block.entry i).down }) ∧
      (∀ d, (s.block.entry i).down = some d →
        t.block.entry d = { s.block.entry d with up := (s.block.entry i).up }) ∧
      (∀ j, j ≠ i → (s.block.entry i).up ≠ some j → (s.block.entry i).down ≠ some j →
        t.block.entry j = s.block.entry j)

/-- REMOVE of a note that is not held is a no-op (corner case (b) of R83, 40_mutate.md section 3). -/
def Obligations.RemoveOfNoteNotHeldIsNoOp : Prop :=
  ∀ (s : State) (note : BitVec 8), (∀ i : Note, i.val = note.toNat → (s.block.entry i).active = false) →
    exec (.remove note) s = .next s

/-- CLEAR unlinks every active entry and no other, keeps the velocities and makes `top` null
(40_mutate.md section 4). -/
def Obligations.ClearUnlinksEveryActiveEntry : Prop :=
  ∀ s : State, ∃ t, exec .clear s = .next t ∧ t.block.top = none ∧
    (∀ i, (s.block.entry i).active = true →
      t.block.entry i = { active := false, vel := (s.block.entry i).vel, up := none, down := none }) ∧
    (∀ i, (s.block.entry i).active = false → t.block.entry i = s.block.entry i)

/-- CLEAR leaves the state that removing every held note leaves, in any order, whether or not other notes are
in it too (the derived sentence of R84, 40_mutate.md section 4). -/
def Obligations.ClearIsRemovingEveryNote : Prop :=
  ∀ (s : State) (order : List Note), s.block.Inv → (∀ i, (s.block.entry i).active = true → i ∈ order) →
    ∃ t, exec .clear s = .next t ∧
      execAll (order.map fun i => .remove (BitVec.ofNat 8 i.val)) s = .next t

/-- What PUSH leaves unchanged, in every state: an out-of-range note changes nothing; otherwise an entry that
is not the note's, not one of its old neighbours and not the old top is unchanged, every other note's
`active` and `vel` are unchanged, and so is all that is not the block (10_state.md section 8,
70_reset_and_hazards.md section 5). -/
def Obligations.PushFrame : Prop :=
  ∀ (s t : State) (note : BitVec 8) (vel : Vel), exec (.push note vel) s = .next t →
    (128 ≤ note.toNat → t = s) ∧
    (∀ i : Note, i.val = note.toNat → ∀ j, j ≠ i →
      (t.block.entry j).active = (s.block.entry j).active ∧ (t.block.entry j).vel = (s.block.entry j).vel ∧
      (s.block.top ≠ some j →
        ((s.block.entry i).active = true →
          (s.block.entry i).up ≠ some j ∧ (s.block.entry i).down ≠ some j) →
        t.block.entry j = s.block.entry j)) ∧
    t.resetLine = s.resetLine ∧ t.inputs = s.inputs ∧ t.waiting = s.waiting ∧
    t.delivered = s.delivered ∧ t.freeCount = s.freeCount

/-- What REMOVE leaves unchanged, in every state: an entry that is not the note's and not one of its
neighbours, every velocity, and all that is not the block (10_state.md section 8,
70_reset_and_hazards.md section 5). -/
def Obligations.RemoveFrame : Prop :=
  ∀ (s t : State) (note : BitVec 8), exec (.remove note) s = .next t →
    (128 ≤ note.toNat → t = s) ∧
    (∀ i : Note, i.val = note.toNat → ∀ j, j ≠ i →
      (t.block.entry j).active = (s.block.entry j).active ∧
      ((s.block.entry i).up ≠ some j → (s.block.entry i).down ≠ some j →
        t.block.entry j = s.block.entry j)) ∧
    (∀ j, (t.block.entry j).vel = (s.block.entry j).vel) ∧
    t.resetLine = s.resetLine ∧ t.inputs = s.inputs ∧ t.waiting = s.waiting ∧
    t.delivered = s.delivered ∧ t.freeCount = s.freeCount

/-- What CLEAR leaves unchanged, in every state: inactive entries, every velocity, and all that is not the
block (10_state.md section 8). -/
def Obligations.ClearFrame : Prop :=
  ∀ s t : State, exec .clear s = .next t →
    (∀ j, (s.block.entry j).active = false → t.block.entry j = s.block.entry j) ∧
    (∀ j, (t.block.entry j).vel = (s.block.entry j).vel) ∧
    t.resetLine = s.resetLine ∧ t.inputs = s.inputs ∧ t.waiting = s.waiting ∧
    t.delivered = s.delivered ∧ t.freeCount = s.freeCount

/-- A velocity changes only by a PUSH of its note, to the velocity pushed (the access tables of R21 and R37,
10_state.md sections 2 and 8). -/
def Obligations.OnlyPushWritesAVelocity : Prop :=
  ∀ (i : Instr) (s t : State) (j : Note), exec i s = .next t →
    (t.block.entry j).vel ≠ (s.block.entry j).vel →
    ∃ note, i = .push note (t.block.entry j).vel ∧ note.toNat = j.val

/-- Performing a mutating command twice in a row leaves the state of performing it once (the derived rule
R45, 20_memory.md section 4). -/
def Obligations.MutatingCommandsAreIdempotent : Prop :=
  ∀ (i : Instr) (s : State), s.block.Inv → isMutating i = true →
    ∃ t, exec i s = .next t ∧ exec i t = .next t

/-! ## The query commands -/

/-- TOPN answers the count and then the notes, top first, and writes no state (the derived rule R108,
41_query.md section 4). -/
def Obligations.TopnAnswersTheTopNotes : Prop :=
  ∀ (s : State) (n : BitVec 8), s.block.Inv →
    exec (.topn n) s = .next { s with waiting := s.waiting ++
      (response 0x4 (BitVec.ofNat 8 (s.block.held.take n.toNat).length) ::
        (s.block.held.take n.toNat).map fun i => response 0x4 (BitVec.ofNat 8 i.val)) }

/-- The count of TOPN is `min(n, |L|)`, at most 128: it never wraps (the derived rule R103,
41_query.md section 1). -/
def Obligations.TopnCountNeverWraps : Prop :=
  ∀ (s : State) (n : BitVec 8), s.block.Inv →
    ∃ t, exec (.topn n) s = .next t ∧
      (t.waiting[s.waiting.length]?).map (fun w => (responseData w).toNat) =
        some (min n.toNat s.block.held.length) ∧
      min n.toNat s.block.held.length ≤ 128 ∧
      t.waiting.length = s.waiting.length + 1 + min n.toNat s.block.held.length

/-- ISEMPTY on the abstract view: the state is unchanged but for the answer, 1 when `L = []`, else 0
(R109). -/
def Obligations.IsemptyOnAbstractView : Prop :=
  ∀ s : State, s.block.Inv →
    ∃ d, exec .isempty s = .next { s with waiting := s.waiting ++ [response 0x5 d] } ∧
      (s.block.alpha.held = [] → d = 1) ∧ (s.block.alpha.held ≠ [] → d = 0)

/-- TOPVEL on the abstract view: the state is unchanged but for the answer, 0 when `L = []`, else
`V(head L)` (R110). -/
def Obligations.TopvelOnAbstractView : Prop :=
  ∀ s : State, s.block.Inv →
    ∃ d, exec .topvel s = .next { s with waiting := s.waiting ++ [response 0x6 d] } ∧
      (s.block.alpha.held = [] → d = 0) ∧
      (∀ i, s.block.alpha.held.head? = some i → d.toNat = (s.block.alpha.vel i).toNat)

/-- What TOPN, ISEMPTY and TOPVEL leave unchanged, in every state: the whole block, and all else but the
words added to the response port (the derived rule R106, 41_query.md section 4). -/
def Obligations.QueriesWriteNoState : Prop :=
  ∀ (i : Instr) (s t : State), isMutating i = false → exec i s = .next t →
    t.block = s.block ∧ (∃ ws, t.waiting = s.waiting ++ ws) ∧ t.resetLine = s.resetLine ∧
    t.inputs = s.inputs ∧ t.delivered = s.delivered ∧ t.freeCount = s.freeCount

/-- The caller stores word `k` of a TOPN response at position `k - 1` of its buffer and leaves the positions
at or above the count as they were (41_query.md section 1, D28). That a buffer shorter than the count keeps
its length, with nothing written past its end, is the model's choice (log 19). -/
def Obligations.CallersBufferBeyondTheCountIsKept : Prop :=
  ∀ (s t : State) (n : BitVec 8) (buf : List (BitVec 8)), s.block.Inv → s.waiting = [] →
    exec (.topn n) s = .next t →
    (callerStore buf t.waiting).length = buf.length ∧
    ∀ k, k < buf.length →
      (callerStore buf t.waiting)[k]? =
        if k < responseCount t.waiting then (s.block.held[k]?).map noteBits else buf[k]?

/-- The voice-dispatcher's `TOPN N_VOICES` reports the first `N_VOICES` held notes and leaves the others
held (the derived rule R111, 41_query.md section 5). -/
def Obligations.DispatcherReadsTheTopVoices : Prop :=
  ∀ s : State, s.block.Inv → s.waiting = [] →
    ∃ t, exec dispatcherRead s = .next t ∧ t.block = s.block ∧
      responseNotes t.waiting = (s.block.held.take Config.nVoices).map noteBits

/-! ## The block as a whole -/

/-- No command raises an exception: each has a next state, in every state, on every operand (R120). -/
def Obligations.NoCommandRaisesAnException : Prop :=
  ∀ (i : Instr) (s : State), ∃ t, exec i s = .next t

/-- The commands on the links refine the commands on the abstract view: the next state satisfies INV, shows
the abstract next state and answers the abstract answer (the derived rules R85, R90 and R107,
40_mutate.md section 5 and 41_query.md section 4). -/
def Obligations.CommandsRefineTheAbstractView : Prop :=
  ∀ (i : Instr) (s : State), s.block.Inv →
    ∃ t, exec i s = .next t ∧ t.block.Inv ∧ (t.block.alpha).Same (s.block.alpha.after i) ∧
      t.waiting = s.waiting ++ s.block.alpha.answer i

/-- Two states with the same abstract view cannot be told apart by any sequence of commands (the derived rule
R29, 10_state.md section 5). -/
def Obligations.AbstractViewSuffices : Prop :=
  ∀ (is : List Instr) (s s' : State), s.block.Inv → s'.block.Inv → s.block.alpha.Same s'.block.alpha →
    ∃ t t' ws, execAll is s = .next t ∧ execAll is s' = .next t' ∧ t.block.alpha.Same t'.block.alpha ∧
      t.waiting = s.waiting ++ ws ∧ t'.waiting = s'.waiting ++ ws

/-- From an empty stack, whatever the commands: the held notes are those whose latest PUSH stands, the most
recent first, each with the velocity of that PUSH (the derived rule R30, 10_state.md section 5). -/
def Obligations.HeldNotesAreInRecencyOrder : Prop :=
  ∀ (is : List Instr) (s : State), s.block.Inv → s.block.top = none →
    ∃ t, execAll is s = .next t ∧
      (∀ i, i ∈ t.block.held ↔ sincePush i is.reverse ≠ none) ∧
      t.block.held.Pairwise (pushedLater is.reverse) ∧
      ∀ i ∈ t.block.held, ∃ p note, sincePush i is.reverse = some p ∧ note.toNat = i.val ∧
        is.reverse[p]? = some (.push note (t.block.entry i).vel)

/-- `E[i].active = 1` exactly when note `i` is held, and no note is held twice (R22). -/
def Obligations.ActiveExactlyWhenHeld : Prop :=
  ∀ b : Block, b.Inv → b.held.Nodup ∧ b.held.length ≤ 128 ∧
    ∀ i, (b.entry i).active = true ↔ i ∈ b.held

/-- `top` names the first held note, and is `NIL` exactly when no note is held (R23). -/
def Obligations.TopIsTheFirstHeldNote : Prop :=
  ∀ b : Block, b.Inv → b.top = b.held.head? ∧ (b.top = none ↔ b.held = []) ∧
    ((linkBits b.top).toNat ≤ 127 ∨ linkBits b.top = 0xFF)

/-- The links of the held notes name their neighbours in the list, `up` the more recent and `down` the less
recent one, `NIL` at the ends (R24), and every entry a link names is active (R27). -/
def Obligations.LinksNameTheNeighbours : Prop :=
  ∀ b : Block, b.Inv →
    (∀ (k : Nat) (i j : Note), b.held[k]? = some i → b.held[k + 1]? = some j →
      (b.entry i).down = some j ∧ (b.entry j).up = some i) ∧
    (∀ i, b.held.head? = some i → (b.entry i).up = none) ∧
    (∀ i, b.held.getLast? = some i → (b.entry i).down = none) ∧
    (∀ i j, (b.entry i).up = some j ∨ (b.entry i).down = some j → (b.entry j).active = true)

/-- The check of INV that a step makes says exactly what R25 says (10_state.md section 4). That a step makes
it is the model's choice (log 7). -/
def Obligations.InvCheckIsExact : Prop :=
  ∀ b : Block, b.invCheck = true ↔ b.Inv

/-- INV holds in the reset state, where no note is held (10_state.md section 4). -/
def Obligations.ResetSatisfiesInv : Prop :=
  State.reset.block.Inv ∧ State.reset.block.held = []

/-- Every step keeps INV (the derived rule R26, 10_state.md section 4). -/
def Obligations.StepKeepsInv : Prop :=
  ∀ s t : State, s.block.Inv → step s = .next t → t.block.Inv

/-! ## Steps, the host's duties and the refusals -/

/-- When the next host event is a command word from the main loop that decodes, reset is not asserted and
every response word is taken, the step is the command, with the word taken from the events
(20_memory.md sections 4 and 6). That the word comes as the first of a list of host events is the model's
choice (log 1), and that waiting words are a list too (log 2). -/
def Obligations.StepRunsTheDecodedCommand : Prop :=
  ∀ (s : State) (w : CmdWord) (rest : List HostEvent) (i : Instr), s.block.Inv →
    s.inputs = .command .mainLoop w :: rest → s.resetLine = false → s.waiting = [] → decode w = .ok i →
    step s = exec i { s with inputs := rest }

/-- `withFetchWord` makes the next step run the instruction of the word. How a command comes to the block is
the model's choice (log 1). -/
def Obligations.FetchWordIsRunNext : Prop :=
  ∀ (s : State) (w : CmdWord) (i : Instr), s.block.Inv → decode w = .ok i →
    step (s.withFetchWord 32 w.toNat) =
      exec i { s with resetLine := false, waiting := [], delivered := s.delivered ++ s.waiting }

/-- A step has a transition exactly when INV holds and the host keeps its duties
(60_exceptions.md section 6, 70_reset_and_hazards.md section 4). That every step, and not only the launch,
stops without INV is DEDUCED (log 7); that there is a transition without a host event is DEDUCED (log 10);
that response words may be taken at any level of the reset input is the model's choice (log 21). -/
def Obligations.StepStopsOnlyOnBrokenDuties : Prop :=
  ∀ s : State, CanStep s ↔ s.block.Inv ∧ hostDuty s = true

/-- The name of each refusal of a command word: from interrupt context, during reset, before the last
response word is taken, and reserved (60_exceptions.md section 6, U1, U5 to U7). Which is named first
where two hold (log 8) and the list of host events (log 1) are the model's choices. -/
def Obligations.BadCommandsAreRefusedByName : Prop :=
  ∀ (s : State) (issuer : Issuer) (w : CmdWord) (rest : List HostEvent), s.block.Inv →
    s.inputs = .command issuer w :: rest →
    (issuer = .interruptHandler → step s = .refused .commandFromInterrupt) ∧
    (issuer = .mainLoop → s.resetLine = true → step s = .refused .commandDuringReset) ∧
    (issuer = .mainLoop → s.resetLine = false → s.waiting ≠ [] → step s = .refused .responseNotTaken) ∧
    (issuer = .mainLoop → s.resetLine = false → s.waiting = [] → (∃ e, decode w = .error e) →
      step s = .refused .reservedWord)

/-- A state that violates INV has no meaning and is refused (10_state.md section 4, U4; log 7). -/
def Obligations.StateViolatingInvIsRefused : Prop :=
  ∀ s : State, ¬ s.block.Inv → step s = .refused .launchViolatesInv

/-- A step performs the first host event: it is what `performEvent` gives for it, in the state with that event
taken from the list, and with no host event the state stays as it is; so each step takes exactly the first
event (20_memory.md section 6, which orders the commands). One list of all host events is the model's choice
(log 1), the check of INV is DEDUCED (log 7), and so is the step without an event (log 10). -/
def Obligations.EventsArePerformedInOrder : Prop :=
  (∀ (s : State) (ev : HostEvent) (rest : List HostEvent), s.block.Inv → s.inputs = ev :: rest →
    (∀ i u, performEvent ev { s with inputs := rest } = .run i u → step s = exec i u) ∧
    (∀ u, performEvent ev { s with inputs := rest } = .done u → step s = .next u) ∧
    (∀ r, performEvent ev { s with inputs := rest } = .stop r → step s = .refused r)) ∧
  (∀ s : State, s.block.Inv → s.inputs = [] → step s = .next s) ∧
  (∀ s t : State, step s = .next t → t.inputs = s.inputs.tail)

/-- A command takes effect only when every response word was delivered, its own words come after all earlier
ones, and words are delivered in the order they were sent (20_memory.md section 6). The model's own are: the
list of waiting words and the event that takes the oldest of them (log 2), that words not yet taken are kept
or lost when the block is reset, a free choice (log 6), that a release of the reset input delivers nothing
(log 20), and, DEDUCED, the step without an event (log 10) and the timer interrupt handler (log 11). -/
def Obligations.ResponsesAreDeliveredInOrder : Prop :=
  ∀ s t : State, step s = .next t →
    (∀ issuer w, s.inputs.head? = some (.command issuer w) →
      s.waiting = [] ∧ t.delivered = s.delivered) ∧
    (∀ k, s.inputs.head? = some (.take k) →
      t.delivered = s.delivered ++ s.waiting.take k ∧ t.delivered ++ t.waiting = s.delivered ++ s.waiting) ∧
    (s.inputs.head? = none ∨ s.inputs.head? = some .timerInterrupt ∨
        s.inputs.head? = some (.resetInput false) →
      t.delivered = s.delivered ∧ t.waiting = s.waiting) ∧
    (s.inputs.head? = some .powerUp ∨ s.inputs.head? = some (.resetInput true) →
      t.delivered = s.delivered ∧ (t.waiting = s.waiting ∨ t.waiting = []))

/-- The block changes only by a command or a reset (10_state.md section 8, 60_exceptions.md section 2). That with
no host event the passive block stays as it is is DEDUCED (log 10), and so is that the timer interrupt
handler, as a host event, changes nothing (log 11). The event that takes words (log 2) and that releasing the
reset input leaves all else as it is (log 20) are the model's choices. -/
def Obligations.OtherEventsLeaveTheBlock : Prop :=
  ∀ s : State, s.block.Inv →
    (s.inputs = [] → step s = .next s) ∧
    (∀ rest, s.inputs = .timerInterrupt :: rest → step s = .next { s with inputs := rest }) ∧
    (∀ k rest, s.inputs = .take k :: rest → ∃ t, step s = .next t ∧ t.block = s.block) ∧
    (∀ rest, s.inputs = .resetInput false :: rest →
      step s = .next { s with inputs := rest, resetLine := false })

/-! ## Reset -/

/-- The state right after reset: `top` and every link `NIL`, every entry inactive, every `note` field its
index (R36; its velocities are unspecified, and nothing is said of them). -/
def Obligations.ResetStateIsTheEmptyStack : Prop :=
  linkBits State.reset.block.top = 0xFF ∧
  ∀ i, (State.reset.block.entry i).active = false ∧ linkBits (State.reset.block.entry i).up = 0xFF ∧
    linkBits (State.reset.block.entry i).down = 0xFF ∧ State.reset.block.noteField i = i

/-- On power-up, and when the reset input is asserted, the stack becomes empty: `top = NIL`, every
`active = 0`, every link `NIL` (70_reset_and_hazards.md section 1). That the two are host events, and that the
level of the input is kept, is the model's choice (logs 1 and 20). -/
def Obligations.ResetEmptiesTheStack : Prop :=
  ∀ (s : State) (rest : List HostEvent), s.block.Inv →
    s.inputs = .resetInput true :: rest ∨ s.inputs = .powerUp :: rest →
    ∃ t, step s = .next t ∧ t.inputs = rest ∧ t.block.top = none ∧
      (∀ i, (t.block.entry i).active = false ∧ (t.block.entry i).up = none ∧ (t.block.entry i).down = none) ∧
      (s.inputs = .resetInput true :: rest → t.resetLine = true)

/-- CLEAR leaves the block of a reset but for the velocities, and no sequence of commands can tell the two apart:
`r` is any state whose block has the values of R36 (the state right after reset and a block after a reset
event among them), whatever its velocities are (the derived rule R141, 70_reset_and_hazards.md section 1). -/
def Obligations.ClearAndResetCannotBeToldApart : Prop :=
  ∀ (s r : State), s.block.Inv → r.block.top = none →
    (∀ i, (r.block.entry i).active = false ∧ (r.block.entry i).up = none ∧ (r.block.entry i).down = none) →
    ∃ t, exec .clear s = .next t ∧ t.block.top = r.block.top ∧
      (∀ i, (t.block.entry i).active = (r.block.entry i).active ∧ (t.block.entry i).up = (r.block.entry i).up ∧
        (t.block.entry i).down = (r.block.entry i).down) ∧
      ∀ is, ∃ u u' ws, execAll is t = .next u ∧ execAll is r = .next u' ∧
        u.waiting = t.waiting ++ ws ∧ u'.waiting = r.waiting ++ ws
end

