-- ==== Sys2Proof/Laws/Decode.lean ====
section
/-! SUPPORT. A word and its fields are the same thing (R61), and the arithmetic values of the fields. -/

namespace Sys2Proof

/-- Concatenation puts its left part in the high bits. -/
theorem append_toNat {n m : Nat} (x : BitVec n) (y : BitVec m) :
    (x ++ y).toNat = x.toNat * 2 ^ m + y.toNat := by
  rw [BitVec.toNat_append, ← Nat.shiftLeft_add_eq_or_of_lt y.isLt, Nat.shiftLeft_eq]

/-- The bits of a word from `start` on, as a number. -/
theorem extract_toNat {n : Nat} (w : BitVec n) (start len : Nat) :
    (w.extractLsb' start len).toNat = w.toNat / 2 ^ start % 2 ^ len := by
  rw [BitVec.extractLsb'_toNat, Nat.shiftRight_eq_div_pow]

/-- The value of the word with given fields. -/
theorem Fields.toWord_toNat (f : Fields) :
    f.toWord.toNat =
      f.op.toNat * 2 ^ 28 + f.z1.toNat * 2 ^ 16 + f.a.toNat * 2 ^ 8 + f.z2.toNat * 2 ^ 7 + f.v.toNat := by
  unfold Fields.toWord
  simp only [append_toNat]
  omega

theorem Fields.ofWord_op_toNat (w : CmdWord) : (Fields.ofWord w).op.toNat = w.toNat / 2 ^ 28 := by
  have := w.isLt
  rw [Fields.ofWord, extract_toNat]; omega
theorem Fields.ofWord_z1_toNat (w : CmdWord) : (Fields.ofWord w).z1.toNat = w.toNat / 2 ^ 16 % 2 ^ 12 :=
  extract_toNat w 16 12
theorem Fields.ofWord_a_toNat (w : CmdWord) : (Fields.ofWord w).a.toNat = w.toNat / 2 ^ 8 % 2 ^ 8 :=
  extract_toNat w 8 8
theorem Fields.ofWord_z2_toNat (w : CmdWord) : (Fields.ofWord w).z2.toNat = w.toNat / 2 ^ 7 % 2 :=
  extract_toNat w 7 1
theorem Fields.ofWord_v_toNat (w : CmdWord) : (Fields.ofWord w).v.toNat = w.toNat % 2 ^ 7 := by
  rw [Fields.ofWord, extract_toNat]; simp

/-- The fields of the word with given fields. -/
theorem Fields.ofWord_toWord (f : Fields) : Fields.ofWord f.toWord = f := by
  obtain ⟨op, z1, a, z2, v⟩ := f
  have h := Fields.toWord_toNat ⟨op, z1, a, z2, v⟩
  have h1 := op.isLt
  have h2 := z1.isLt
  have h3 := a.isLt
  have h4 := z2.isLt
  have h5 := v.isLt
  simp only [Fields.ofWord, Fields.mk.injEq]
  refine ⟨?_, ?_, ?_, ?_, ?_⟩ <;>
    · apply BitVec.eq_of_toNat_eq
      rw [extract_toNat, h]
      simp only
      omega

/-- The word with the fields of a word. -/
theorem Fields.toWord_ofWord (w : CmdWord) : (Fields.ofWord w).toWord = w := by
  have := w.isLt
  apply BitVec.eq_of_toNat_eq
  rw [Fields.toWord_toNat, ofWord_op_toNat, ofWord_z1_toNat, ofWord_a_toNat, ofWord_z2_toNat, ofWord_v_toNat]
  omega

/-- A word is its fields. -/
theorem Fields.ofWord_inj {w x : CmdWord} : Fields.ofWord w = Fields.ofWord x ↔ w = x :=
  ⟨fun h => by rw [← Fields.toWord_ofWord w, h, Fields.toWord_ofWord], fun h => by rw [h]⟩

/-- Masking a word masks its fields (R63). -/
theorem Fields.ofWord_and (w m : CmdWord) :
    Fields.ofWord (w &&& m) =
      { op := (Fields.ofWord w).op &&& (Fields.ofWord m).op
        z1 := (Fields.ofWord w).z1 &&& (Fields.ofWord m).z1
        a  := (Fields.ofWord w).a &&& (Fields.ofWord m).a
        z2 := (Fields.ofWord w).z2 &&& (Fields.ofWord m).z2
        v  := (Fields.ofWord w).v &&& (Fields.ofWord m).v } := by
  simp [Fields.ofWord, BitVec.extractLsb'_and]

end Sys2Proof
end

