-- ==== Sys2Proof/Laws/State.lean ====
section
/-! SUPPORT. One lemma per field per update of the state and of the block. -/

namespace Sys2Proof.Machine

/-! The state's updates. -/

@[simp] theorem State.setBlock_block (s : State) (b : Block) : (s.setBlock b).block = b := rfl
@[simp] theorem State.setBlock_resetLine (s : State) (b : Block) : (s.setBlock b).resetLine = s.resetLine := rfl
@[simp] theorem State.setBlock_inputs (s : State) (b : Block) : (s.setBlock b).inputs = s.inputs := rfl
@[simp] theorem State.setBlock_waiting (s : State) (b : Block) : (s.setBlock b).waiting = s.waiting := rfl
@[simp] theorem State.setBlock_delivered (s : State) (b : Block) : (s.setBlock b).delivered = s.delivered := rfl
@[simp] theorem State.setBlock_freeCount (s : State) (b : Block) : (s.setBlock b).freeCount = s.freeCount := rfl
@[simp] theorem State.setBlock_self (s : State) : s.setBlock s.block = s := rfl

@[simp] theorem State.emit_block (s : State) (ws : List RespWord) : (s.emit ws).block = s.block := rfl
@[simp] theorem State.emit_resetLine (s : State) (ws : List RespWord) : (s.emit ws).resetLine = s.resetLine := rfl
@[simp] theorem State.emit_inputs (s : State) (ws : List RespWord) : (s.emit ws).inputs = s.inputs := rfl
@[simp] theorem State.emit_waiting (s : State) (ws : List RespWord) : (s.emit ws).waiting = s.waiting ++ ws := rfl
@[simp] theorem State.emit_delivered (s : State) (ws : List RespWord) : (s.emit ws).delivered = s.delivered := rfl
@[simp] theorem State.emit_freeCount (s : State) (ws : List RespWord) : (s.emit ws).freeCount = s.freeCount := rfl

@[simp] theorem State.takeResponses_block (s : State) (k : Nat) : (s.takeResponses k).block = s.block := rfl
@[simp] theorem State.takeResponses_resetLine (s : State) (k : Nat) : (s.takeResponses k).resetLine = s.resetLine := rfl
@[simp] theorem State.takeResponses_inputs (s : State) (k : Nat) : (s.takeResponses k).inputs = s.inputs := rfl
@[simp] theorem State.takeResponses_waiting (s : State) (k : Nat) :
    (s.takeResponses k).waiting = s.waiting.drop k := rfl
@[simp] theorem State.takeResponses_delivered (s : State) (k : Nat) :
    (s.takeResponses k).delivered = s.delivered ++ s.waiting.take k := rfl
@[simp] theorem State.takeResponses_freeCount (s : State) (k : Nat) : (s.takeResponses k).freeCount = s.freeCount := rfl

@[simp] theorem State.resetBlock_block (s : State) : s.resetBlock.block = Block.afterReset s.freeCount := rfl
@[simp] theorem State.resetBlock_resetLine (s : State) : s.resetBlock.resetLine = s.resetLine := rfl
@[simp] theorem State.resetBlock_inputs (s : State) : s.resetBlock.inputs = s.inputs := rfl
@[simp] theorem State.resetBlock_waiting (s : State) :
    s.resetBlock.waiting = if Config.resetDropsResponses s.freeCount then [] else s.waiting := rfl
@[simp] theorem State.resetBlock_delivered (s : State) : s.resetBlock.delivered = s.delivered := rfl
@[simp] theorem State.resetBlock_freeCount (s : State) : s.resetBlock.freeCount = s.freeCount + 1 := rfl

theorem State.setResetLine_true (s : State) : s.setResetLine true = { s.resetBlock with resetLine := true } := rfl
theorem State.setResetLine_false (s : State) : s.setResetLine false = { s with resetLine := false } := rfl

@[simp] theorem State.withNextCommand_block (s : State) (w : CmdWord) : (s.withNextCommand w).block = s.block := rfl
@[simp] theorem State.withNextCommand_resetLine (s : State) (w : CmdWord) :
    (s.withNextCommand w).resetLine = false := rfl
@[simp] theorem State.withNextCommand_inputs (s : State) (w : CmdWord) :
    (s.withNextCommand w).inputs = .command .mainLoop w :: s.inputs := rfl
@[simp] theorem State.withNextCommand_waiting (s : State) (w : CmdWord) : (s.withNextCommand w).waiting = [] := rfl
@[simp] theorem State.withNextCommand_delivered (s : State) (w : CmdWord) :
    (s.withNextCommand w).delivered = s.delivered ++ s.waiting := rfl
@[simp] theorem State.withNextCommand_freeCount (s : State) (w : CmdWord) :
    (s.withNextCommand w).freeCount = s.freeCount := rfl

/-! The block's updates. -/

theorem Block.modify_entry (b : Block) (i j : Note) (f : Entry → Entry) :
    (b.modify i f).entry j = if j = i then f (b.entry i) else b.entry j := by
  by_cases h : j = i
  · subst h; simp [Block.modify, Block.entry]
  · simpa [Block.modify, Block.entry, h] using Vector.getElem_set_ne i.isLt j.isLt (fun e => h (Fin.ext e.symm))

@[simp] theorem Block.setActive_top (b : Block) (i : Note) (x : Bool) : (b.setActive i x).top = b.top := rfl
@[simp] theorem Block.setVel_top (b : Block) (i : Note) (x : Vel) : (b.setVel i x).top = b.top := rfl
@[simp] theorem Block.setUp_top (b : Block) (i : Note) (x : Link) : (b.setUp i x).top = b.top := rfl
@[simp] theorem Block.setDown_top (b : Block) (i : Note) (x : Link) : (b.setDown i x).top = b.top := rfl
@[simp] theorem Block.setTop_top (b : Block) (x : Link) : (b.setTop x).top = x := rfl
@[simp] theorem Block.setTop_entry (b : Block) (x : Link) (j : Note) : (b.setTop x).entry j = b.entry j := rfl

@[simp] theorem Block.setActive_active (b : Block) (i j : Note) (x : Bool) :
    ((b.setActive i x).entry j).active = if j = i then x else (b.entry j).active := by
  rw [Block.setActive, Block.modify_entry]; split <;> simp_all
@[simp] theorem Block.setActive_vel (b : Block) (i j : Note) (x : Bool) :
    ((b.setActive i x).entry j).vel = (b.entry j).vel := by
  rw [Block.setActive, Block.modify_entry]; split <;> simp_all
@[simp] theorem Block.setActive_up (b : Block) (i j : Note) (x : Bool) :
    ((b.setActive i x).entry j).up = (b.entry j).up := by
  rw [Block.setActive, Block.modify_entry]; split <;> simp_all
@[simp] theorem Block.setActive_down (b : Block) (i j : Note) (x : Bool) :
    ((b.setActive i x).entry j).down = (b.entry j).down := by
  rw [Block.setActive, Block.modify_entry]; split <;> simp_all

@[simp] theorem Block.setVel_active (b : Block) (i j : Note) (x : Vel) :
    ((b.setVel i x).entry j).active = (b.entry j).active := by
  rw [Block.setVel, Block.modify_entry]; split <;> simp_all
@[simp] theorem Block.setVel_vel (b : Block) (i j : Note) (x : Vel) :
    ((b.setVel i x).entry j).vel = if j = i then x else (b.entry j).vel := by
  rw [Block.setVel, Block.modify_entry]; split <;> simp_all
@[simp] theorem Block.setVel_up (b : Block) (i j : Note) (x : Vel) :
    ((b.setVel i x).entry j).up = (b.entry j).up := by
  rw [Block.setVel, Block.modify_entry]; split <;> simp_all
@[simp] theorem Block.setVel_down (b : Block) (i j : Note) (x : Vel) :
    ((b.setVel i x).entry j).down = (b.entry j).down := by
  rw [Block.setVel, Block.modify_entry]; split <;> simp_all

@[simp] theorem Block.setUp_active (b : Block) (i j : Note) (x : Link) :
    ((b.setUp i x).entry j).active = (b.entry j).active := by
  rw [Block.setUp, Block.modify_entry]; split <;> simp_all
@[simp] theorem Block.setUp_vel (b : Block) (i j : Note) (x : Link) :
    ((b.setUp i x).entry j).vel = (b.entry j).vel := by
  rw [Block.setUp, Block.modify_entry]; split <;> simp_all
@[simp] theorem Block.setUp_up (b : Block) (i j : Note) (x : Link) :
    ((b.setUp i x).entry j).up = if j = i then x else (b.entry j).up := by
  rw [Block.setUp, Block.modify_entry]; split <;> simp_all
@[simp] theorem Block.setUp_down (b : Block) (i j : Note) (x : Link) :
    ((b.setUp i x).entry j).down = (b.entry j).down := by
  rw [Block.setUp, Block.modify_entry]; split <;> simp_all

@[simp] theorem Block.setDown_active (b : Block) (i j : Note) (x : Link) :
    ((b.setDown i x).entry j).active = (b.entry j).active := by
  rw [Block.setDown, Block.modify_entry]; split <;> simp_all
@[simp] theorem Block.setDown_vel (b : Block) (i j : Note) (x : Link) :
    ((b.setDown i x).entry j).vel = (b.entry j).vel := by
  rw [Block.setDown, Block.modify_entry]; split <;> simp_all
@[simp] theorem Block.setDown_up (b : Block) (i j : Note) (x : Link) :
    ((b.setDown i x).entry j).up = (b.entry j).up := by
  rw [Block.setDown, Block.modify_entry]; split <;> simp_all
@[simp] theorem Block.setDown_down (b : Block) (i j : Note) (x : Link) :
    ((b.setDown i x).entry j).down = if j = i then x else (b.entry j).down := by
  rw [Block.setDown, Block.modify_entry]; split <;> simp_all

@[simp] theorem Block.clear_top (b : Block) : b.clear.top = none := rfl
theorem Block.clear_entry (b : Block) (j : Note) : b.clear.entry j = (b.entry j).cleared := by
  simp [Block.clear, Block.entry]

@[simp] theorem Block.reset_top : Block.reset.top = none := rfl
theorem Block.reset_entry (j : Note) : Block.reset.entry j = Entry.reset := by
  simp [Block.reset, Block.entry]

@[simp] theorem Block.afterReset_top (n : Nat) : (Block.afterReset n).top = none := rfl
theorem Block.afterReset_entry (n : Nat) (j : Note) :
    (Block.afterReset n).entry j = { Entry.reset with vel := Config.freeVel n j } := by
  simp [Block.afterReset, Block.entry]

/-- Two blocks with the same top and the same fields of every entry are the same. -/
theorem Block.ext_entry {b c : Block} (ht : b.top = c.top) (he : ∀ j, b.entry j = c.entry j) : b = c := by
  obtain ⟨es, tb⟩ := b
  obtain ⟨fs, tc⟩ := c
  simp only [Block.mk.injEq]
  refine ⟨Vector.ext fun k hk => ?_, ht⟩
  simpa [Block.entry] using he ⟨k, hk⟩

/-- Two entries with the same fields are the same. -/
theorem Entry.ext_fields {e f : Entry} (h1 : e.active = f.active) (h2 : e.vel = f.vel) (h3 : e.up = f.up)
    (h4 : e.down = f.down) : e = f := by
  cases e; cases f; simp_all

end Sys2Proof.Machine
end

