-- ==== Sys2Proof/Laws/Ops.lean ====
section
/-! SUPPORT. What each shared operation over the block does to each field, once and for all blocks. -/

namespace Sys2Proof.Machine

theorem Block.setUpAt_top (b : Block) (l x : Link) : (b.setUpAt l x).top = b.top := by
  cases l <;> rfl
theorem Block.setUpAt_active (b : Block) (l x : Link) (j : Note) :
    ((b.setUpAt l x).entry j).active = (b.entry j).active := by
  cases l <;> simp [Block.setUpAt]
theorem Block.setUpAt_vel (b : Block) (l x : Link) (j : Note) :
    ((b.setUpAt l x).entry j).vel = (b.entry j).vel := by
  cases l <;> simp [Block.setUpAt]
theorem Block.setUpAt_up (b : Block) (l x : Link) (j : Note) :
    ((b.setUpAt l x).entry j).up = if l = some j then x else (b.entry j).up := by
  cases l <;> simp [Block.setUpAt, eq_comm]
theorem Block.setUpAt_down (b : Block) (l x : Link) (j : Note) :
    ((b.setUpAt l x).entry j).down = (b.entry j).down := by
  cases l <;> simp [Block.setUpAt]

theorem Block.setBelow_top (b : Block) (l x : Link) :
    (b.setBelow l x).top = if l = none then x else b.top := by
  cases l <;> simp [Block.setBelow]
theorem Block.setBelow_active (b : Block) (l x : Link) (j : Note) :
    ((b.setBelow l x).entry j).active = (b.entry j).active := by
  cases l <;> simp [Block.setBelow]
theorem Block.setBelow_vel (b : Block) (l x : Link) (j : Note) :
    ((b.setBelow l x).entry j).vel = (b.entry j).vel := by
  cases l <;> simp [Block.setBelow]
theorem Block.setBelow_up (b : Block) (l x : Link) (j : Note) :
    ((b.setBelow l x).entry j).up = (b.entry j).up := by
  cases l <;> simp [Block.setBelow]
theorem Block.setBelow_down (b : Block) (l x : Link) (j : Note) :
    ((b.setBelow l x).entry j).down = if l = some j then x else (b.entry j).down := by
  cases l <;> simp [Block.setBelow, eq_comm]

/-! `unlink` (R80), field by field. -/

theorem Block.unlink_top (b : Block) (i : Note) :
    (b.unlink i).top = if (b.entry i).up = none then (b.entry i).down else b.top := by
  simp [Block.unlink, Block.setUpAt_top, Block.setBelow_top]
theorem Block.unlink_active (b : Block) (i j : Note) :
    ((b.unlink i).entry j).active = if j = i then false else (b.entry j).active := by
  simp [Block.unlink, Block.setUpAt_active, Block.setBelow_active]
theorem Block.unlink_vel (b : Block) (i j : Note) : ((b.unlink i).entry j).vel = (b.entry j).vel := by
  simp [Block.unlink, Block.setUpAt_vel, Block.setBelow_vel]
theorem Block.unlink_up (b : Block) (i j : Note) :
    ((b.unlink i).entry j).up =
      if j = i then none else if (b.entry i).down = some j then (b.entry i).up else (b.entry j).up := by
  simp [Block.unlink, Block.setUpAt_up, Block.setBelow_up]
theorem Block.unlink_down (b : Block) (i j : Note) :
    ((b.unlink i).entry j).down =
      if j = i then none else if (b.entry i).up = some j then (b.entry i).down else (b.entry j).down := by
  simp [Block.unlink, Block.setUpAt_down, Block.setBelow_down]

/-! `link_top` (R81), field by field. -/

theorem Block.linkTop_top (b : Block) (i : Note) : (b.linkTop i).top = some i := by
  simp [Block.linkTop]
theorem Block.linkTop_active (b : Block) (i j : Note) :
    ((b.linkTop i).entry j).active = if j = i then true else (b.entry j).active := by
  simp [Block.linkTop, Block.setUpAt_active]
theorem Block.linkTop_vel (b : Block) (i j : Note) : ((b.linkTop i).entry j).vel = (b.entry j).vel := by
  simp [Block.linkTop, Block.setUpAt_vel]
theorem Block.linkTop_up (b : Block) (i j : Note) :
    ((b.linkTop i).entry j).up = if b.top = some j then some i else if j = i then none else (b.entry j).up := by
  simp [Block.linkTop, Block.setUpAt_up]
theorem Block.linkTop_down (b : Block) (i j : Note) :
    ((b.linkTop i).entry j).down = if j = i then b.top else (b.entry j).down := by
  simp [Block.linkTop, Block.setUpAt_down]

/-! CLEAR (R84), field by field. -/

theorem Block.clear_active (b : Block) (j : Note) : (b.clear.entry j).active = false := by
  rw [Block.clear_entry]; unfold Entry.cleared; split <;> simp_all
theorem Block.clear_vel (b : Block) (j : Note) : (b.clear.entry j).vel = (b.entry j).vel := by
  rw [Block.clear_entry]; unfold Entry.cleared; split <;> rfl
theorem Block.clear_up (b : Block) (j : Note) :
    (b.clear.entry j).up = if (b.entry j).active then none else (b.entry j).up := by
  rw [Block.clear_entry]; unfold Entry.cleared; split <;> rfl
theorem Block.clear_down (b : Block) (j : Note) :
    (b.clear.entry j).down = if (b.entry j).active then none else (b.entry j).down := by
  rw [Block.clear_entry]; unfold Entry.cleared; split <;> rfl

/-! The note operand (R43, R62). -/

theorem noteOperand_eq_none {a : BitVec 8} : noteOperand a = none ↔ 128 ≤ a.toNat := by
  unfold noteOperand; split <;> simp <;> omega
theorem noteOperand_eq_some {a : BitVec 8} {i : Note} : noteOperand a = some i ↔ a.toNat = i.val := by
  unfold noteOperand; split
  · simp [Fin.ext_iff]
  · simp; omega

end Sys2Proof.Machine
end

