-- ==== Sys2Proof/Laws/Order.lean ====
section
/-! SUPPORT. Neighbours in a duplicate-free list, INV in terms of them, and what the helpers of the mutating
commands do to the list that a block holds. -/

namespace Sys2Proof.Machine

/-- What follows `x` in the list. -/
def nextIn : List Note → Note → Link
  | [], _     => none
  | a :: t, x => if x = a then t.head? else nextIn t x

/-- What precedes `x` in the list, with `p` before its first element. -/
def prevIn (p : Link) : List Note → Note → Link
  | [], _     => none
  | a :: t, x => if x = a then p else prevIn (some a) t x

theorem nextIn_of_not_mem {t : List Note} {x : Note} (h : x ∉ t) : nextIn t x = none := by
  induction t with
  | nil => rfl
  | cons a t ih =>
    simp only [List.mem_cons, not_or] at h
    simp [nextIn, h.1, ih h.2]

theorem prevIn_of_not_mem {p : Link} {t : List Note} {x : Note} (h : x ∉ t) : prevIn p t x = none := by
  induction t generalizing p with
  | nil => rfl
  | cons a t ih =>
    simp only [List.mem_cons, not_or] at h
    simp [prevIn, h.1, ih h.2]

theorem nextIn_mem {t : List Note} {x y : Note} (h : nextIn t x = some y) : y ∈ t := by
  induction t with
  | nil => simp [nextIn] at h
  | cons a t ih =>
    simp only [nextIn] at h
    split at h
    · exact List.mem_cons_of_mem _ (List.mem_of_head? h)
    · exact List.mem_cons_of_mem _ (ih h)

theorem prevIn_mem {p : Link} {t : List Note} {x y : Note} (h : prevIn p t x = some y) :
    p = some y ∨ y ∈ t := by
  induction t generalizing p with
  | nil => simp [prevIn] at h
  | cons a t ih =>
    simp only [prevIn] at h
    split at h
    · exact .inl h
    · rcases ih h with h | h
      · exact .inr (by simp_all)
      · exact .inr (List.mem_cons_of_mem _ h)

theorem nextIn_getElem {t : List Note} (hd : t.Nodup) (k : Nat) (hk : k < t.length) :
    nextIn t t[k] = t[k + 1]? := by
  induction t generalizing k with
  | nil => simp at hk
  | cons a t ih =>
    rw [List.nodup_cons] at hd
    cases k with
    | zero => simp [nextIn, List.head?_eq_getElem?]
    | succ k =>
      have hne : t[k]'(by simpa using hk) ≠ a := fun e => hd.1 (e ▸ List.getElem_mem _)
      simp [nextIn, hne, ih hd.2]

theorem prevIn_getElem {p : Link} {t : List Note} (hd : t.Nodup) (k : Nat) (hk : k < t.length) :
    prevIn p t t[k] = if 0 < k then t[k - 1]? else p := by
  induction t generalizing k p with
  | nil => simp at hk
  | cons a t ih =>
    rw [List.nodup_cons] at hd
    cases k with
    | zero => simp [prevIn]
    | succ k =>
      have hne : t[k]'(by simpa using hk) ≠ a := fun e => hd.1 (e ▸ List.getElem_mem _)
      simp only [List.getElem_cons_succ, prevIn, hne, if_false]
      rw [ih hd.2]
      cases k <;> simp

/-- The first element is the one with nothing but `p` before it. -/
theorem prevIn_eq_start {p : Link} {t : List Note} {x : Note} (hd : t.Nodup) (hx : x ∈ t)
    (hp : ∀ q, p = some q → q ∉ t) : prevIn p t x = p ↔ t.head? = some x := by
  cases t with
  | nil => simp at hx
  | cons a t =>
    rw [List.nodup_cons] at hd
    by_cases h : x = a
    · simp [prevIn, h]
    · simp only [prevIn, h, if_false, List.head?_cons, Option.some.injEq, eq_comm (a := a), iff_false]
      have hxt : x ∈ t := by simpa [h] using hx
      intro e
      have key : ∀ (t : List Note) (q : Note), x ∈ t → prevIn (some q) t x ≠ none := by
        intro t
        induction t with
        | nil => simp
        | cons c t ih =>
          intro q hx
          by_cases hc : x = c
          · simp [prevIn, hc]
          · simpa [prevIn, hc] using ih c (by simpa [hc] using hx)
      cases p with
      | none => exact key t a hxt e
      | some q =>
        rcases prevIn_mem e with h1 | h1
        · exact hp q rfl (by simp_all)
        · exact hp q rfl (List.mem_cons_of_mem _ h1)

/-- `y` stands right before `x` exactly when `x` stands right after `y`. -/
theorem prevIn_eq_some_iff {p : Link} {t : List Note} {x y : Note} (hd : t.Nodup) (hp : p ≠ some y) :
    prevIn p t x = some y ↔ nextIn t y = some x := by
  induction t generalizing p with
  | nil => simp [prevIn, nextIn]
  | cons a t ih =>
    rw [List.nodup_cons] at hd
    by_cases hx : x = a
    · subst hx
      simp only [prevIn, if_true, hp, false_iff]
      by_cases hy : y = x
      · subst hy
        simp only [nextIn, if_true]
        exact fun e => hd.1 (List.mem_of_head? e)
      · simp only [nextIn, hy, if_false]
        exact fun e => hd.1 (nextIn_mem e)
    · simp only [prevIn, hx, if_false]
      by_cases hy : y = a
      · subst hy
        simp only [nextIn, if_true]
        by_cases hxt : x ∈ t
        · exact prevIn_eq_start hd.2 hxt (by rintro q ⟨⟩; exact hd.1)
        · rw [prevIn_of_not_mem hxt]
          simpa using fun e => hxt (List.mem_of_head? e)
      · simpa only [nextIn, hy, if_false] using ih hd.2 (by simpa using fun e => hy e.symm)

theorem head?_erase {t : List Note} {i : Note} (hd : t.Nodup) :
    (t.erase i).head? = if t.head? = some i then nextIn t i else t.head? := by
  cases t with
  | nil => simp
  | cons a t =>
    by_cases h : a = i
    · simp [h, nextIn]
    · simp [h]

/-- What follows an element once `i` is taken out: `i`'s former successor, if it stood right before `i`. -/
theorem nextIn_erase {t : List Note} {i x : Note} (hd : t.Nodup) (hi : i ∈ t) :
    nextIn (t.erase i) x =
      if x = i then none else if nextIn t x = some i then nextIn t i else nextIn t x := by
  induction t with
  | nil => simp at hi
  | cons a t ih =>
    rw [List.nodup_cons] at hd
    by_cases ha : a = i
    · subst ha
      by_cases hx : x = a
      · subst hx; simp [nextIn_of_not_mem hd.1]
      · have : nextIn t x ≠ some a := fun e => hd.1 (nextIn_mem e)
        simp [hx, nextIn, this]
    · have hit : i ∈ t := by simpa [Ne.symm ha] using hi
      have hne : (i : Note) ≠ a := Ne.symm ha
      rw [List.erase_cons_tail (by simpa using ha)]
      by_cases hx : x = a
      · subst hx
        simp [nextIn, ha, hne, head?_erase hd.2]
      · simp [nextIn, hx, hne, ih hd.2 hit]

/-- What precedes an element once `i` is taken out: `i`'s former predecessor, if it stood right after `i`. -/
theorem prevIn_erase {p : Link} {t : List Note} {i x : Note} (hd : t.Nodup) (hi : i ∈ t) :
    prevIn p (t.erase i) x =
      if x = i then none else if nextIn t i = some x then prevIn p t i else prevIn p t x := by
  induction t generalizing p with
  | nil => simp at hi
  | cons a t ih =>
    rw [List.nodup_cons] at hd
    by_cases ha : a = i
    · subst ha
      by_cases hx : x = a
      · subst hx; simp [prevIn_of_not_mem hd.1]
      · simp only [List.erase_cons_head, hx, if_false, nextIn, if_true, prevIn]
        cases t with
        | nil => simp [prevIn]
        | cons c t =>
          by_cases hc : x = c
          · simp [prevIn, hc]
          · simp [prevIn, hc, eq_comm (a := c)]
    · have hit : i ∈ t := by simpa [Ne.symm ha] using hi
      have hne : (i : Note) ≠ a := Ne.symm ha
      rw [List.erase_cons_tail (by simpa using ha)]
      by_cases hx : x = a
      · subst hx
        have : nextIn t i ≠ some x := fun e => hd.1 (nextIn_mem e)
        simp [prevIn, ha, hne, nextIn, this]
      · simp [prevIn, hx, hne, nextIn, ih hd.2 hit]

/-- INV for the sequence `t`, said through neighbours: the form the proofs use. -/
structure Block.Shows (b : Block) (t : List Note) : Prop where
  nodup : t.Nodup
  members : ∀ i, i ∈ t ↔ (b.entry i).active = true
  top : b.top = t.head?
  up : ∀ i, (b.entry i).up = prevIn none t i
  down : ∀ i, (b.entry i).down = nextIn t i

/-- The neighbour form says what R25 says. -/
theorem Block.shows_iff_invFor {b : Block} {t : List Note} : b.Shows t ↔ b.InvFor t := by
  constructor
  · intro h
    refine ⟨h.nodup, h.members, ?_, ?_, ?_, ?_⟩
    · rw [h.top]; cases t <;> simp
    · intro k hk
      rw [h.up, prevIn_getElem h.nodup k hk]
    · intro k hk
      rw [h.down, nextIn_getElem h.nodup k hk]
      split
      · rfl
      · exact List.getElem?_eq_none (by omega)
    · intro i hi
      have hni : i ∉ t := fun hm => by simp [(h.members i).1 hm] at hi
      exact ⟨by rw [h.up, prevIn_of_not_mem hni], by rw [h.down, nextIn_of_not_mem hni]⟩
  · intro h
    have out : ∀ i, i ∉ t → (b.entry i).up = none ∧ (b.entry i).down = none := fun i hi =>
      h.inactive i (by simpa using mt (h.members i).2 hi)
    refine ⟨h.distinct, h.members, ?_, ?_, ?_⟩
    · rw [h.top_eq]; cases t <;> simp
    · intro i
      by_cases hi : i ∈ t
      · obtain ⟨k, hk, rfl⟩ := List.getElem_of_mem hi
        rw [h.up_eq k hk, prevIn_getElem h.distinct k hk]
      · rw [(out i hi).1, prevIn_of_not_mem hi]
    · intro i
      by_cases hi : i ∈ t
      · obtain ⟨k, hk, rfl⟩ := List.getElem_of_mem hi
        rw [h.down_eq k hk, nextIn_getElem h.distinct k hk]
        split
        · rfl
        · exact (List.getElem?_eq_none (by omega)).symm
      · rw [(out i hi).2, nextIn_of_not_mem hi]

theorem Block.inv_iff_shows {b : Block} : b.Inv ↔ ∃ t, b.Shows t := by
  simp only [Block.Inv, Block.shows_iff_invFor]

/-- Walking from the top of `t` meets the first `n` notes of `t`. -/
theorem Block.walk_of_down {b : Block} {t : List Note} (hd : t.Nodup)
    (h : ∀ i ∈ t, (b.entry i).down = nextIn t i) (n : Nat) : b.walk n t.head? = t.take n := by
  induction n generalizing t with
  | zero => simp [Block.walk]
  | succ n ih =>
    cases t with
    | nil => simp [Block.walk]
    | cons a t =>
      rw [List.nodup_cons] at hd
      have ha := h a (by simp)
      simp only [nextIn, if_true] at ha
      simp only [List.head?_cons, Block.walk, List.take_succ_cons, ha, List.cons.injEq, true_and]
      refine ih hd.2 fun i hi => ?_
      have hne : i ≠ a := fun e => hd.1 (e ▸ hi)
      simpa [nextIn, hne] using h i (List.mem_cons_of_mem _ hi)

theorem Block.Shows.walk {b : Block} {t : List Note} (h : b.Shows t) (n : Nat) :
    b.walk n b.top = t.take n := by
  rw [h.top]; exact Block.walk_of_down h.nodup (fun i _ => h.down i) n

theorem nodup_length_le {t : List Note} (h : t.Nodup) : t.length ≤ 128 := by
  simpa using h.length_le_card

theorem Block.Shows.length_le {b : Block} {t : List Note} (h : b.Shows t) : t.length ≤ 128 :=
  nodup_length_le h.nodup

/-- The walk of R28 gives the sequence of R25. -/
theorem Block.Shows.held {b : Block} {t : List Note} (h : b.Shows t) : b.held = t := by
  rw [Block.held, h.walk, List.take_of_length_le h.length_le]

theorem Block.Shows.topNotes {b : Block} {t : List Note} (h : b.Shows t) (n : BitVec 8) :
    b.topNotes n = t.take n.toNat := h.walk n.toNat

/-- The empty stack shows the empty list. -/
theorem Block.shows_nil {b : Block} (ht : b.top = none)
    (h : ∀ i, (b.entry i).active = false ∧ (b.entry i).up = none ∧ (b.entry i).down = none) :
    b.Shows [] :=
  ⟨by simp, by simp [h], by simp [ht], by simp [h, prevIn], by simp [h, nextIn]⟩

theorem Block.reset_shows : Block.reset.Shows [] :=
  Block.shows_nil rfl fun i => by simp [Block.reset_entry, Entry.reset]

theorem Block.afterReset_shows (n : Nat) : (Block.afterReset n).Shows [] :=
  Block.shows_nil rfl fun i => by simp [Block.afterReset_entry, Entry.reset]

/-- `unlink` takes the note out of the list (R80, R85). -/
theorem Block.Shows.unlink {b : Block} {t : List Note} (h : b.Shows t) {i : Note} (hi : i ∈ t) :
    (b.unlink i).Shows (t.erase i) := by
  refine ⟨h.nodup.erase i, ?_, ?_, ?_, ?_⟩
  · intro j
    rw [h.nodup.mem_erase_iff, Block.unlink_active, h.members j]
    split <;> simp_all
  · rw [Block.unlink_top, head?_erase h.nodup, h.up, h.down, h.top]
    simp only [prevIn_eq_start h.nodup hi (p := none) (by simp)]
  · intro j
    rw [Block.unlink_up, prevIn_erase h.nodup hi, h.up, h.up, h.down]
  · intro j
    rw [Block.unlink_down, nextIn_erase h.nodup hi, h.up, h.down, h.down]
    simp only [prevIn_eq_some_iff h.nodup (p := none) (y := j) (by simp)]

/-- `link_top` puts the note in front of the list (R81, R85). -/
theorem Block.Shows.linkTop {b : Block} {t : List Note} (h : b.Shows t) {i : Note} (hi : i ∉ t) :
    (b.linkTop i).Shows (i :: t) := by
  refine ⟨List.nodup_cons.2 ⟨hi, h.nodup⟩, ?_, ?_, ?_, ?_⟩
  · intro j
    rw [List.mem_cons, Block.linkTop_active, h.members j]
    split <;> simp_all
  · rw [Block.linkTop_top]; rfl
  · intro j
    rw [Block.linkTop_up, h.top, h.up]
    by_cases hj : j = i
    · subst hj
      have : t.head? ≠ some j := fun e => hi (List.mem_of_head? e)
      simp [prevIn, this]
    · simp only [prevIn, hj, if_false]
      cases t with
      | nil => simp [prevIn]
      | cons a t =>
        by_cases ha : j = a
        · simp [prevIn, ha]
        · simp [prevIn, ha, eq_comm (a := a)]
  · intro j
    rw [Block.linkTop_down, h.top, h.down]
    by_cases hj : j = i <;> simp [nextIn, hj]

/-- Writing a velocity changes no list. -/
theorem Block.Shows.setVel {b : Block} {t : List Note} (h : b.Shows t) (i : Note) (v : Vel) :
    (b.setVel i v).Shows t :=
  ⟨h.nodup, by simpa using h.members, by simpa using h.top, by simpa using h.up, by simpa using h.down⟩

/-- PUSH on the list (R85, R87). -/
theorem Block.Shows.push {b : Block} {t : List Note} (h : b.Shows t) (i : Note) (v : Vel) :
    (b.push i v).Shows (i :: t.erase i) := by
  unfold Block.push
  by_cases hi : i ∈ t
  · rw [if_pos ((h.members i).1 hi)]
    exact ((h.unlink hi).linkTop (by rw [h.nodup.mem_erase_iff]; simp)).setVel i v
  · rw [if_neg (mt (h.members i).2 hi), List.erase_of_not_mem hi]
    exact (h.linkTop hi).setVel i v

/-- REMOVE on the list (R85, R88). -/
theorem Block.Shows.remove {b : Block} {t : List Note} (h : b.Shows t) (i : Note) :
    (b.remove i).Shows (t.erase i) := by
  unfold Block.remove
  by_cases hi : i ∈ t
  · rw [if_pos ((h.members i).1 hi)]; exact h.unlink hi
  · rw [if_neg (mt (h.members i).2 hi), List.erase_of_not_mem hi]; exact h

/-- CLEAR on the list (R85, R89). -/
theorem Block.Shows.clear {b : Block} {t : List Note} (h : b.Shows t) : b.clear.Shows [] := by
  refine Block.shows_nil rfl fun i => ⟨Block.clear_active b i, ?_, ?_⟩
  · rw [Block.clear_up]; split
    · rfl
    · next hi => rw [h.up, prevIn_of_not_mem (mt (h.members i).1 hi)]
  · rw [Block.clear_down]; split
    · rfl
    · next hi => rw [h.down, nextIn_of_not_mem (mt (h.members i).1 hi)]

/-- PUSH writes one velocity. -/
theorem Block.push_vel (b : Block) (i j : Note) (v : Vel) :
    ((b.push i v).entry j).vel = if j = i then v else (b.entry j).vel := by
  rw [Block.push, Block.setVel_vel, Block.linkTop_vel]
  split
  · rfl
  · split <;> simp [Block.unlink_vel]

/-- REMOVE writes no velocity. -/
theorem Block.remove_vel (b : Block) (i j : Note) : ((b.remove i).entry j).vel = (b.entry j).vel := by
  rw [Block.remove]; split <;> simp [Block.unlink_vel]

end Sys2Proof.Machine
end

