-- ==== Sys2Proof/Laws/PerInstr.lean ====
section
/-! SUPPORT. One statement about the encoding of each command, one lemma per constructor. -/

namespace Sys2Proof.Laws.EncodeFields

/-- The word of a command has the command's selector and well-formed fields (R61, R63). -/
def Statement (i : Instr) : Prop :=
  (Fields.ofWord (encode i)).op = i.opcode ∧ (Fields.ofWord (encode i)).wellFormed = true

/-- The five checks give well-formedness. -/
theorem wellFormed_of {f : Fields} (h1 : f.opKnown = true) (h2 : f.z1Zero = true) (h3 : f.z2Zero = true)
    (h4 : f.aAllowed = true) (h5 : f.vAllowed = true) : f.wellFormed = true := by
  simp [Fields.wellFormed, h1, h2, h3, h4, h5]

theorem push (note : BitVec 8) (vel : Vel) : Statement (.push note vel) := by
  rw [Statement, encode, Fields.ofWord_toWord]
  exact ⟨rfl, wellFormed_of rfl rfl rfl
    (by simp [Fields.aAllowed, Instr.fields, Instr.opcode])
    (by simp [Fields.vAllowed, Instr.fields, Instr.opcode])⟩

theorem remove (note : BitVec 8) : Statement (.remove note) := by
  rw [Statement, encode, Fields.ofWord_toWord]
  exact ⟨rfl, wellFormed_of rfl rfl rfl
    (by simp [Fields.aAllowed, Instr.fields, Instr.opcode]) rfl⟩

theorem clear : Statement .clear := by
  rw [Statement, encode, Fields.ofWord_toWord]; exact ⟨rfl, by decide⟩

theorem topn (n : BitVec 8) : Statement (.topn n) := by
  rw [Statement, encode, Fields.ofWord_toWord]
  exact ⟨rfl, wellFormed_of rfl rfl rfl
    (by simp [Fields.aAllowed, Instr.fields, Instr.opcode]) rfl⟩

theorem isempty : Statement .isempty := by
  rw [Statement, encode, Fields.ofWord_toWord]; exact ⟨rfl, by decide⟩

theorem topvel : Statement .topvel := by
  rw [Statement, encode, Fields.ofWord_toWord]; exact ⟨rfl, by decide⟩

end Sys2Proof.Laws.EncodeFields
end

