-- ==== Sys2Proof/Tests/Slice0.lean ====
section
/-! SUPPORT. Tests: words written out from the spec's encodings, the spec's vectors one step at a time, and a
witness for the hypotheses of each statement that has any. Expected values are from spec/30_encoding.md,
spec/40_mutate.md, spec/41_query.md and spec/95_test_vectors.md, or worked out by hand from a rule. -/

namespace Sys2Proof.Tests

open Sys2Proof.Machine Sys2Proof.Safety

/-! ## Well-formed fields: one ill-formed term for each check (R61, R66) -/

theorem test_wellFormed_push : Fields.wellFormed { op := 1, z1 := 0, a := 60, z2 := 0, v := 100 } = true := by
  decide
theorem test_wellFormed_opcode : Fields.wellFormed { op := 7, z1 := 0, a := 0, z2 := 0, v := 0 } = false := by
  decide
theorem test_wellFormed_opcode0 : Fields.wellFormed { op := 0, z1 := 0, a := 0, z2 := 0, v := 0 } = false := by
  decide
theorem test_wellFormed_z1 : Fields.wellFormed { op := 1, z1 := 1, a := 60, z2 := 0, v := 100 } = false := by
  decide
theorem test_wellFormed_z2 : Fields.wellFormed { op := 1, z1 := 0, a := 60, z2 := 1, v := 100 } = false := by
  decide
theorem test_wellFormed_a : Fields.wellFormed { op := 3, z1 := 0, a := 1, z2 := 0, v := 0 } = false := by
  decide
theorem test_wellFormed_v : Fields.wellFormed { op := 2, z1 := 0, a := 60, z2 := 0, v := 1 } = false := by
  decide

/-! ## Decoding: words written out bit by bit from R61 and R63 (also R70, 95 section 2.1) -/

-- op 0001, z1 zero, a = 60 = 0011_1100, z2 = 0, v = 100 = 110_0100
theorem test_decode_push : decode 0b0001_000000000000_00111100_0_1100100 = .ok (.push 60 100) := by rfl
-- op 0010, a = 200 = 1100_1000
theorem test_decode_remove : decode 0b0010_000000000000_11001000_0_0000000 = .ok (.remove 200) := by rfl
theorem test_decode_clear : decode 0b0011_000000000000_00000000_0_0000000 = .ok .clear := by rfl
-- op 0100, n = 255
theorem test_decode_topn : decode 0b0100_000000000000_11111111_0_0000000 = .ok (.topn 255) := by rfl
theorem test_decode_isempty : decode 0b0101_000000000000_00000000_0_0000000 = .ok .isempty := by rfl
theorem test_decode_topvel : decode 0b0110_000000000000_00000000_0_0000000 = .ok .topvel := by rfl
theorem test_decode_push_z2 : decode 0x10003CE4 = .error .z2 := by rfl
theorem test_decode_push_z1 : decode 0x10013C64 = .error .z1 := by rfl
theorem test_decode_remove_v : decode 0x20003C01 = .error .v := by rfl
theorem test_decode_clear_a : decode 0x30000100 = .error .a := by rfl
theorem test_decode_zero : decode 0x00000000 = .error .opcode := by rfl
theorem test_decode_reserved : decode 0xF0000000 = .error .opcode := by rfl
theorem test_encode_push : encode (.push 64 80) = 0x10004050 := by rfl
theorem test_encode_topn : encode (.topn 2) = 0x40000200 := by rfl
theorem test_tableWord : decodeTableWord 32 0x60000000 = some .topvel := by rfl
theorem test_rows_disjoint :
    opcodeRows.Pairwise fun r r' => r.pattern &&& (r.mask &&& r'.mask) ≠ r'.pattern &&& (r.mask &&& r'.mask) := by
  decide

/-! ## Small states -/

/-- The block whose list is `l`, top first, built from the reset state by pushes. -/
def blockOf : List (Note × Vel) → Block
  | []          => Block.reset
  | (i, v) :: l => (blockOf l).push i v

/-- A state with that block, and no host event. -/
def stateOf (l : List (Note × Vel)) : State := { State.reset with block := blockOf l }

/-- The next state of an outcome. -/
def nextOf (o : Host.Outcome State Fault Refusal) : Option State :=
  match o with
  | .next s    => some s
  | .fault _   => none
  | .refused _ => none

/-- The refusal of an outcome. -/
def refusalOf (o : Host.Outcome State Fault Refusal) : Option Refusal :=
  match o with
  | .next _    => none
  | .fault _   => none
  | .refused r => some r

/-- Of a command's next state: `top`, one entry, and the response words. -/
def seen (i : Instr) (s : State) (j : Note) : Option (Link × Entry × List RespWord) :=
  (nextOf (exec i s)).map fun t => (t.block.top, t.block.entry j, t.waiting)

/-- The list `[3, 2, 1]` of 95 section 2, with velocities 9, 8, 7. -/
def s321 : State := stateOf [(3, 9), (2, 8), (1, 7)]

/-- `L = [64, 60]`, as in R82's example. -/
def s6460 : State := stateOf [(64, 80), (60, 100)]

/-! ## One step of each command -/

-- 95 section 2.2: [3, 2, 1], PUSH 2, 7 gives [2, 3, 1] with E[3].down = 1 and E[3].up = 2
theorem test_push_middle : seen (.push 2 7) s321 3 = some (some 2, ⟨true, 9, some 2, some 1⟩, []) := by decide
-- 95 section 2.2: PUSH 128, 7 is a no-op
theorem test_push_outOfRange : nextOf (exec (.push 128 7) s321) = some s321 := by decide +kernel
-- 95 section 2.3: REMOVE 3 gives [2, 1] with top = 2 and E[2].up = NIL
theorem test_remove_top : seen (.remove 3) s321 2 = some (some 2, ⟨true, 8, none, some 1⟩, []) := by decide
-- 95 section 2.3: REMOVE 1 gives [3, 2] with E[2].down = NIL
theorem test_remove_bottom : seen (.remove 1) s321 2 = some (some 3, ⟨true, 8, some 3, none⟩, []) := by decide
-- R84: [3, 2, 1], CLEAR gives [], velocities kept
theorem test_clear : seen .clear s321 2 = some (none, ⟨false, 8, none, none⟩, []) := by decide
-- 95 section 2.5: TOPN 4 on [3, 2, 1]
theorem test_topn_more : (nextOf (exec (.topn 4) s321)).map (·.waiting) =
    some [0x4003, 0x4003, 0x4002, 0x4001] := by decide
-- R101's example: TOPN 1 on [64, 60]
theorem test_topn_one : (nextOf (exec (.topn 1) s6460)).map (·.waiting) = some [0x4001, 0x4040] := by decide
-- 95 section 2.6
theorem test_isempty_empty : (nextOf (exec .isempty State.reset)).map (·.waiting) = some [0x5001] := by decide
theorem test_isempty_velocity0 : (nextOf (exec .isempty (stateOf [(0, 0)]))).map (·.waiting) = some [0x5000] := by
  decide
theorem test_topvel_empty : (nextOf (exec .topvel State.reset)).map (·.waiting) = some [0x6000] := by decide
-- R105's example
theorem test_topvel : (nextOf (exec .topvel s6460)).map (·.waiting) = some [0x6050] := by decide

/-! ## Steps -/

theorem test_step_from_reset :
    (nextOf (step (State.reset.withFetchWord 32 0x10003C64))).map (·.block.top) = some (some 60) := by
  decide +kernel
-- P4: a reserved word is refused
theorem test_step_reserved :
    refusalOf (step (State.reset.withFetchWord 32 0x70000000)) = some .reservedWord := by decide +kernel
-- U5
theorem test_step_interrupt :
    refusalOf (step { State.reset with inputs := [.command .interruptHandler 0x30000000] }) =
      some .commandFromInterrupt := by decide +kernel
-- U6
theorem test_step_duringReset :
    refusalOf (step { State.reset with resetLine := true, inputs := [.command .mainLoop 0x30000000] }) =
      some .commandDuringReset := by decide +kernel
-- U7
theorem test_step_responseNotTaken :
    refusalOf (step { State.reset with waiting := [0x5001], inputs := [.command .mainLoop 0x30000000] }) =
      some .responseNotTaken := by decide +kernel
-- U4: `top` names an entry that is not active
theorem test_step_badLaunch :
    refusalOf (step { State.reset with block := Block.reset.setTop (some 5) }) = some .launchViolatesInv := by
  decide +kernel
theorem test_step_idle : nextOf (step State.reset) = some State.reset := by decide +kernel
theorem test_step_take :
    (nextOf (step { State.reset with waiting := [0x4001, 0x4040], inputs := [.take 1] })).map
      (fun t => (t.delivered, t.waiting)) = some ([0x4001], [0x4040]) := by decide +kernel
theorem test_step_reset :
    (nextOf (step { s321 with inputs := [.resetInput true] })).map
      (fun t => (t.block.top, (t.block.entry 3).active, t.resetLine)) = some (none, false, true) := by
  decide +kernel

/-! ## The other parts -/

-- R42: the most significant byte first
theorem test_carrier : commandBytes 0x10003C64 = [0x10, 0x00, 0x3C, 0x64] := by decide
-- R68: PUSH 60, 100 ; x
theorem test_asm_push :
    assembleLine ['P', 'U', 'S', 'H', ' ', '6', '0', ',', ' ', '1', '0', '0', ' ', ';', ' ', 'x'] =
      .ok (some (.push 60 100)) := by rfl
theorem test_asm_hex : assembleLine ['T', 'O', 'P', 'N', ' ', '0', 'x', 'f', 'F'] = .ok (some (.topn 255)) := by
  rfl
theorem test_asm_range : assembleLine ['R', 'E', 'M', 'O', 'V', 'E', ' ', '2', '5', '6'] =
    .error .operandOutOfRange := by rfl
theorem test_asm_vel_range : assembleLine ['P', 'U', 'S', 'H', ' ', '1', ',', '1', '2', '8'] =
    .error .operandOutOfRange := by rfl
theorem test_asm_unknown : assembleLine ['P', 'O', 'P'] = .error .unknownMnemonic := by rfl
-- R102: count 2, notes 64 and 60, into a buffer of three
theorem test_callerStore : callerStore [7, 8, 9] [0x4002, 0x4040, 0x403C] = [0x40, 0x3C, 9] := by decide
-- R144: the mutating commands come before the voice-dispatcher's read
theorem test_controlCycle :
    (controlCycle [.push 60 100, .isempty, .remove 3]).take 2 =
      [.command .mainLoop 0x10003C64, .command .mainLoop 0x20000300] := by rfl

/-! ## Witnesses: the hypotheses of each statement hold together somewhere -/

theorem blockOf_inv : ∀ l : List (Note × Vel), ∃ t, (blockOf l).Shows t
  | []          => ⟨_, Block.reset_shows⟩
  | (i, v) :: l => let ⟨_, h⟩ := blockOf_inv l; ⟨_, h.push i v⟩

/-- INV holds of every state built by pushes. -/
theorem stateOf_inv (l : List (Note × Vel)) : (stateOf l).block.Inv := Block.inv_iff_shows.2 (blockOf_inv l)

/-- EncodeOfDecodeIsTheWord, OperandsAreTheFields (PUSH). -/
theorem witness_decodes_push : decode 0x1000FF7F = .ok (.push 255 127) := by rfl
/-- OperandsAreTheFields (REMOVE and TOPN). -/
theorem witness_decodes_remove_topn :
    decode 0x20008000 = .ok (.remove 128) ∧ decode 0x40000000 = .ok (.topn 0) := ⟨rfl, rfl⟩
/-- OperandsAreTheFields, PushOnAbstractView, RemoveOnAbstractView, PushFrame, RemoveFrame: the two sides of
the range. -/
theorem witness_note_range : (128 : Nat) ≤ (128 : BitVec 8).toNat ∧ (127 : Note).val = (127 : BitVec 8).toNat := by
  decide
/-- NoWordMatchesTwoRows. -/
theorem witness_word_matches_row : ∃ r ∈ opcodeRows, (0x10003C64 : CmdWord) &&& r.mask = r.pattern :=
  ⟨⟨0x1, 0x10000000, 0xFFFF0080⟩, by decide, by decide⟩
/-- PushOnAbstractView, RemoveOnAbstractView, ClearOnAbstractView, TopnAnswersTheTopNotes,
TopnCountNeverWraps, IsemptyOnAbstractView and TopvelOnAbstractView (both their clauses), ActiveExactlyWhenHeld,
TopIsTheFirstHeldNote, LinksNameTheNeighbours, CommandsRefineTheAbstractView. -/
theorem witness_inv : State.reset.block.Inv ∧ State.reset.block.held = [] ∧ s321.block.Inv ∧
    s321.block.held = [3, 2, 1] :=
  ⟨stateOf_inv [], by decide, stateOf_inv _, by decide⟩
/-- PushLinksNewNoteAtTop: a note not held, with an old top and without one. -/
theorem witness_push_new : s321.block.Inv ∧ (127 : Note).val = (127 : BitVec 8).toNat ∧
    (s321.block.entry 127).active = false ∧ s321.block.top = some 3 ∧ State.reset.block.top = none :=
  ⟨stateOf_inv _, by decide⟩
/-- PushOfTheTopRewritesItsVelocityOnly. -/
theorem witness_push_top : s321.block.Inv ∧ (3 : Note).val = (3 : BitVec 8).toNat ∧ s321.block.top = some 3 :=
  ⟨stateOf_inv _, by decide⟩
/-- RePressKeepsTheCount: a held note and one not held. -/
theorem witness_rePress : s321.block.Inv ∧ (1 : Note) ∈ s321.block.held ∧ (0 : Note) ∉ s321.block.held :=
  ⟨stateOf_inv _, by decide⟩
/-- RemoveUnlinksAndRelinks: a note with both neighbours. -/
theorem witness_remove_middle : s321.block.Inv ∧ (2 : Note).val = (2 : BitVec 8).toNat ∧
    (s321.block.entry 2).active = true ∧ (s321.block.entry 2).up = some 3 ∧
    (s321.block.entry 2).down = some 1 :=
  ⟨stateOf_inv _, by decide⟩
/-- RemoveOfNoteNotHeldIsNoOp: an in-range note not held; with 128 no note meets the premise's condition. -/
theorem witness_remove_not_held : (∀ i : Note, i.val = (4 : BitVec 8).toNat → (s321.block.entry i).active = false) ∧
    ∀ i : Note, i.val ≠ (128 : BitVec 8).toNat := by
  refine ⟨fun i hi => ?_, fun i => ?_⟩
  · obtain rfl : i = 4 := Fin.ext hi
    decide
  · have := i.isLt
    simp; omega
/-- ClearUnlinksEveryActiveEntry, ClearFrame: an active and an inactive entry. -/
theorem witness_active_inactive : (s321.block.entry 2).active = true ∧ (s321.block.entry 4).active = false := by
  decide
/-- ClearIsRemovingEveryNote: an order of exactly the held notes. -/
theorem witness_order : s321.block.Inv ∧ ∀ i : Note, (s321.block.entry i).active = true → i ∈ [1, 3, 2] := by
  refine ⟨stateOf_inv _, fun i hi => ?_⟩
  obtain ⟨t, h⟩ := blockOf_inv [(3, 9), (2, 8), (1, 7)]
  have ht : t = [3, 2, 1] := by rw [← h.held]; decide
  have := (h.members i).2 hi
  rw [ht] at this
  simp only [List.mem_cons, List.not_mem_nil, or_false] at this ⊢
  tauto
/-- AssemblerRefusesOutOfRangeOperands: the tokens of lines of each form, and numbers on both sides of the
bounds. -/
theorem witness_asm :
    tokens [] ['P', 'U', 'S', 'H', ' ', '2', '5', '5', ',', '1', '2', '7'] =
      [.word ['P', 'U', 'S', 'H'], .word ['2', '5', '5'], .comma, .word ['1', '2', '7']] ∧
    tokens [] ['R', 'E', 'M', 'O', 'V', 'E', ' ', '2', '5', '6'] =
      [.word ['R', 'E', 'M', 'O', 'V', 'E'], .word ['2', '5', '6']] ∧
    tokens [] ['T', 'O', 'P', 'N', ' ', '2', '5', '5'] = [.word ['T', 'O', 'P', 'N'], .word ['2', '5', '5']] ∧
    tokens [] ['P', 'O', 'P'] = [.word ['P', 'O', 'P']] ∧
    numberValue ['2', '5', '5'] = some 255 ∧ numberValue ['2', '5', '6'] = some 256 ∧
    numberValue ['1', '2', '7'] = some 127 ∧ numberValue ['1', '2', '8'] = some 128 := by decide
/-- PushFrame, RemoveFrame, ClearFrame, QueriesWriteNoState, OnlyPushWritesAVelocity: a next state. -/
theorem witness_next : ([Instr.push 2 7, .push 200 1, .remove 2, .remove 200, .clear, .topn 2, .isempty, .topvel].all
    fun i => (nextOf (exec i s321)).isSome) = true := by decide +kernel
/-- PushFrame and RemoveFrame: entry 64 is neither the note's, nor a neighbour's, nor the top. -/
theorem witness_frame : (64 : Note) ≠ 2 ∧ s321.block.top ≠ some 64 ∧ (s321.block.entry 2).up ≠ some 64 ∧
    (s321.block.entry 2).down ≠ some 64 := by decide
/-- OnlyPushWritesAVelocity: a velocity that changes. -/
theorem witness_velocity_changes : (nextOf (exec (.push 3 1) s321)).map (fun t => (t.block.entry 3).vel) = some 1 ∧
    (s321.block.entry 3).vel = 9 := by decide
/-- MutatingCommandsAreIdempotent, QueriesWriteNoState: commands of both kinds. -/
theorem witness_kinds : isMutating (.push 60 1) = true ∧ isMutating (.remove 60) = true ∧
    isMutating .clear = true ∧ isMutating (.topn 1) = false ∧ isMutating .isempty = false ∧
    isMutating .topvel = false := by decide
/-- CallersBufferBeyondTheCountIsKept, DispatcherReadsTheTopVoices: positions on both sides of the count. -/
theorem witness_caller : s321.block.Inv ∧ s321.waiting = [] ∧
    (nextOf (exec (.topn 2) s321)).map (fun t => responseCount t.waiting) = some 2 :=
  ⟨stateOf_inv _, rfl, by decide⟩
/-- AbstractViewSuffices: two different blocks with the same abstract view. -/
theorem witness_same_view : Block.reset.alpha.Same (blockOf [(5, 10)]).clear.alpha ∧
    Block.reset ≠ (blockOf [(5, 10)]).clear ∧ (blockOf [(5, 10)]).clear.Inv := by
  refine ⟨⟨by decide, by decide⟩, by decide +kernel, ?_⟩
  obtain ⟨t, h⟩ := blockOf_inv [(5, 10)]
  exact Block.inv_iff_shows.2 ⟨_, h.clear⟩
/-- HeldNotesAreInRecencyOrder: an empty stack. -/
theorem witness_empty : State.reset.block.Inv ∧ State.reset.block.top = none := ⟨stateOf_inv [], rfl⟩
/-- LinksNameTheNeighbours: neighbours, the first and the last. -/
theorem witness_neighbours : s321.block.held[0]? = some 3 ∧ s321.block.held[1]? = some 2 ∧
    s321.block.held.getLast? = some 1 := by decide
/-- StepKeepsInv, EventsArePerformedInOrder, ResponsesAreDeliveredInOrder (no event). -/
theorem witness_step : State.reset.block.Inv ∧ (nextOf (step State.reset)).isSome = true :=
  ⟨stateOf_inv [], by decide +kernel⟩
/-- A state whose next event is `ev`. -/
def before (ev : HostEvent) : State := { s321 with inputs := [ev] }
/-- ResponsesAreDeliveredInOrder, OtherEventsLeaveTheBlock, ResetEmptiesTheStack: a step for each kind of
event. -/
theorem witness_events : (before .timerInterrupt).block.Inv ∧
    ([HostEvent.command .mainLoop 0x50000000, .take 0, .resetInput true, .resetInput false, .powerUp,
      .timerInterrupt].all fun ev => (nextOf (step (before ev))).isSome) = true :=
  ⟨stateOf_inv _, by decide +kernel⟩
/-- StepRunsTheDecodedCommand, FetchWordIsRunNext. -/
theorem witness_command : (before (.command .mainLoop 0x50000000)).block.Inv ∧
    (before (.command .mainLoop 0x50000000)).resetLine = false ∧
    (before (.command .mainLoop 0x50000000)).waiting = [] ∧ decode 0x50000000 = .ok .isempty :=
  ⟨stateOf_inv _, rfl, rfl, rfl⟩
/-- StepStopsOnlyOnBrokenDuties: duties kept and broken. -/
theorem witness_duty : hostDuty (before (.command .mainLoop 0x50000000)) = true ∧
    hostDuty (before (.command .interruptHandler 0x50000000)) = false ∧
    hostDuty (before (.command .mainLoop 0)) = false := ⟨rfl, rfl, rfl⟩
/-- BadCommandsAreRefusedByName: the four cases. -/
theorem witness_bad_commands :
    refusalOf (step (before (.command .interruptHandler 0x50000000))) = some .commandFromInterrupt ∧
    refusalOf (step { before (.command .mainLoop 0x50000000) with resetLine := true }) =
      some .commandDuringReset ∧
    refusalOf (step { before (.command .mainLoop 0x50000000) with waiting := [0x5001] }) =
      some .responseNotTaken ∧
    refusalOf (step (before (.command .mainLoop 0x50000001))) = some .reservedWord := by decide +kernel
/-- StateViolatingInvIsRefused: a block whose `top` names an inactive entry. -/
theorem witness_not_inv : ¬ (Block.reset.setTop (some 5)).Inv := by
  rw [Block.inv_iff_shows]
  rintro ⟨t, h⟩
  have ht : t.head? = some 5 := by rw [← h.top]; rfl
  exact absurd ((h.members 5).1 (List.mem_of_head? ht)) (by decide)
/-- ClearAndResetCannotBeToldApart: the state right after reset, and a block after a reset event. -/
theorem witness_after_reset : s321.block.Inv ∧ State.reset.block.top = none ∧
    (∀ i, (State.reset.block.entry i).active = false ∧ (State.reset.block.entry i).up = none ∧
      (State.reset.block.entry i).down = none) ∧
    (∀ i, ((Block.afterReset 0).entry i).active = false ∧ ((Block.afterReset 0).entry i).up = none ∧
      ((Block.afterReset 0).entry i).down = none) := by
  refine ⟨stateOf_inv _, rfl, fun i => ?_, fun i => ?_⟩
  · simp [State.reset, Block.reset_entry, Entry.reset]
  · simp [Block.afterReset_entry, Entry.reset]
/-- EventsArePerformedInOrder: an event of each outcome, a command, an effect and a refusal. -/
theorem witness_performed :
    performEvent (.command .mainLoop 0x30000000) s321 = .run .clear s321 ∧
    performEvent .timerInterrupt s321 = .done s321 ∧
    performEvent (.command .mainLoop 0) s321 = .stop .reservedWord := ⟨rfl, rfl, rfl⟩

end Sys2Proof.Tests
end

section
/-! The state (10_state.md): what INV says of the notes a block holds, and the values right after reset. -/

namespace Sys2Proof.Machine

/-- Under INV the sequence of R25 is the walk of R28. -/
theorem Block.Inv.shows_held {b : Block} (h : b.Inv) : b.Shows b.held := by
  obtain ⟨t, ht⟩ := Block.inv_iff_shows.1 h
  rwa [ht.held]

@[simp] theorem linkBits_none : linkBits none = 0xFF := rfl

@[simp] theorem State.reset_block : State.reset.block = Block.reset := rfl

@[simp] theorem Block.noteField_eq (b : Block) (i : Note) : b.noteField i = i := rfl

@[simp] theorem Block.reset_active (i : Note) : (Block.reset.entry i).active = false := by
  rw [Block.reset_entry]; rfl
@[simp] theorem Block.reset_up (i : Note) : (Block.reset.entry i).up = none := by
  rw [Block.reset_entry]; rfl
@[simp] theorem Block.reset_down (i : Note) : (Block.reset.entry i).down = none := by
  rw [Block.reset_entry]; rfl

/-- Settles O38: the walk is the sequence of R25, whose members are the active entries. -/
theorem activeExactlyWhenHeld : Obligations.ActiveExactlyWhenHeld := by
  intro b hb
  have h : b.Shows b.held := hb.shows_held
  exact ⟨h.nodup, h.length_le, fun i => (h.members i).symm⟩

/-- Settles O52, from the fields of an entry after reset (R36). -/
theorem resetStateIsTheEmptyStack : Obligations.ResetStateIsTheEmptyStack := by
  refine ⟨?top, fun i => ⟨?active, ?up, ?down, ?note⟩⟩
  case top => rw [State.reset_block, Block.reset_top, linkBits_none]
  case active => rw [State.reset_block, Block.reset_active]
  case up => rw [State.reset_block, Block.reset_up, linkBits_none]
  case down => rw [State.reset_block, Block.reset_down, linkBits_none]
  case note => rw [Block.noteField_eq]

end Sys2Proof.Machine
end

section
/-! The encoding (30_encoding.md): the decoder answers a command exactly on the fields of that command. -/

namespace Sys2Proof
open Sys2Proof.Machine

theorem Fields.withoutV_eq_ok {f : Fields} {i j : Instr} : f.withoutV i = .ok j ↔ f.v = 0 ∧ i = j := by
  by_cases hv : f.v = 0#7 <;> simp [Fields.withoutV, hv]

theorem Fields.withoutOperands_eq_ok {f : Fields} {i j : Instr} :
    f.withoutOperands i = .ok j ↔ f.a = 0 ∧ f.v = 0 ∧ i = j := by
  by_cases ha : f.a = 0#8 <;> simp [Fields.withoutOperands, Fields.withoutV_eq_ok, ha]

/-- Every check of R64 is passed, and the selector picks the command. -/
theorem Fields.eq_fields_of_decode {f : Fields} {i : Instr} (h : f.decode = .ok i) : f = i.fields := by
  obtain ⟨op, z1, a, z2, v⟩ := f
  unfold Fields.decode at h
  split_ifs at h with hz1 hz2 push remove clear topn isempty topvel
  all_goals
    obtain rfl : z1 = 0 := not_not.1 hz1
    obtain rfl : z2 = 0 := not_not.1 hz2
  · cases push; cases h; rfl
  · cases remove; obtain ⟨rfl, rfl⟩ := Fields.withoutV_eq_ok.1 h; rfl
  · cases clear; obtain ⟨rfl, rfl, rfl⟩ := Fields.withoutOperands_eq_ok.1 h; rfl
  · cases topn; obtain ⟨rfl, rfl⟩ := Fields.withoutV_eq_ok.1 h; rfl
  · cases isempty; obtain ⟨rfl, rfl, rfl⟩ := Fields.withoutOperands_eq_ok.1 h; rfl
  · cases topvel; obtain ⟨rfl, rfl, rfl⟩ := Fields.withoutOperands_eq_ok.1 h; rfl

theorem Instr.decode_fields (i : Instr) : i.fields.decode = .ok i := by
  cases i <;> rfl

/-- The decoder accepts the fields of the six commands and no others (R63, R66). -/
theorem decode_eq_ok {w : CmdWord} {i : Instr} : decode w = .ok i ↔ Fields.ofWord w = i.fields :=
  ⟨Fields.eq_fields_of_decode, fun h => by rw [decode, h, Instr.decode_fields]⟩

theorem decode_encode (i : Instr) : decode (encode i) = .ok i :=
  decode_eq_ok.2 (Fields.ofWord_toWord i.fields)

/-- The operand byte of a decoded command is bits 15:8 of its word (R61, R62). -/
theorem fields_a_of_decode {w : CmdWord} {i : Instr} (h : decode w = .ok i) :
    i.fields.a.toNat = w.toNat / 2 ^ 8 % 2 ^ 8 := by
  rw [← decode_eq_ok.1 h, Fields.ofWord_a_toNat]

/-- The velocity of a decoded command is bits 6:0 of its word (R61, R62). -/
theorem fields_v_of_decode {w : CmdWord} {i : Instr} (h : decode w = .ok i) :
    i.fields.v.toNat = w.toNat % 2 ^ 7 := by
  rw [← decode_eq_ok.1 h, Fields.ofWord_v_toNat]

/-- A note of 128 or more makes PUSH a no-op (R62, R82). -/
theorem exec_push_outOfRange {note : BitVec 8} (h : 128 ≤ note.toNat) (vel : Vel) (s : State) :
    exec (.push note vel) s = .next s := by
  rw [exec, execPush, noteOperand_eq_none.2 h]

/-- A note of 128 or more makes REMOVE a no-op (R62, R83). -/
theorem exec_remove_outOfRange {note : BitVec 8} (h : 128 ≤ note.toNat) (s : State) :
    exec (.remove note) s = .next s := by
  rw [exec, execRemove, noteOperand_eq_none.2 h]

/-- Settles O6: the operands are the fields `a` and `v` of the word, every command has a word, and a note of
128 or more names no entry. -/
theorem operandsAreTheFields : Obligations.OperandsAreTheFields := by
  refine ⟨fun w note vel h => ⟨fields_a_of_decode h, fields_v_of_decode h⟩,
    fun w note h => fields_a_of_decode h, fun w n h => fields_a_of_decode h,
    fun note vel hn => ⟨⟨_, decode_encode _⟩, ⟨_, decode_encode _⟩, fun s => ?noOp⟩⟩
  case noOp => exact ⟨exec_push_outOfRange hn vel s, exec_remove_outOfRange hn s⟩

end Sys2Proof
end

section
/-! The mutating commands (40_mutate.md): PUSH, REMOVE and CLEAR on the abstract view, and what `link_top` and
`unlink` write in each entry. -/

namespace Sys2Proof.Machine

/-! What the commands run, by the range of the note and by whether it is held. -/

/-- A note operand is out of range, or it is the value of a note (R43, R62). -/
theorem outOfRange_or_note (a : BitVec 8) : 128 ≤ a.toNat ∨ ∃ i : Note, i.val = a.toNat := by
  by_cases h : a.toNat < 128
  · exact .inr ⟨⟨a.toNat, h⟩, rfl⟩
  · exact .inl (Nat.le_of_not_lt h)

theorem exec_push_inRange {note : BitVec 8} {i : Note} (hi : i.val = note.toNat) (vel : Vel) (s : State) :
    exec (.push note vel) s = .next (s.setBlock (s.block.push i vel)) := by
  rw [exec, execPush, noteOperand_eq_some.2 hi.symm]

theorem exec_remove_inRange {note : BitVec 8} {i : Note} (hi : i.val = note.toNat) (s : State) :
    exec (.remove note) s = .next (s.setBlock (s.block.remove i)) := by
  rw [exec, execRemove, noteOperand_eq_some.2 hi.symm]

theorem exec_clear (s : State) : exec .clear s = .next (s.setBlock s.block.clear) := rfl

theorem Block.push_of_not_active {b : Block} {i : Note} (h : (b.entry i).active = false) (v : Vel) :
    b.push i v = (b.linkTop i).setVel i v := by
  rw [Block.push, if_neg (by simp [h])]

theorem Block.remove_of_active {b : Block} {i : Note} (h : (b.entry i).active = true) :
    b.remove i = b.unlink i := by
  rw [Block.remove, if_pos h]

/-! The abstract view after each command. -/

@[simp] theorem Block.alpha_held (b : Block) : b.alpha.held = b.held := rfl
@[simp] theorem Block.alpha_vel (b : Block) (i : Note) : b.alpha.vel i = (b.entry i).vel := rfl

theorem Block.Inv.held_push {b : Block} (h : b.Inv) (i : Note) (v : Vel) :
    (b.push i v).held = i :: b.held.erase i :=
  (h.shows_held.push i v).held

theorem Block.Inv.held_remove {b : Block} (h : b.Inv) (i : Note) : (b.remove i).held = b.held.erase i :=
  (h.shows_held.remove i).held

theorem Block.Inv.held_clear {b : Block} (h : b.Inv) : b.clear.held = [] :=
  h.shows_held.clear.held

theorem Block.alpha_vel_remove (b : Block) (i : Note) : (b.remove i).alpha.vel = b.alpha.vel :=
  funext fun j => b.remove_vel i j

theorem Block.alpha_vel_clear (b : Block) : b.clear.alpha.vel = b.alpha.vel :=
  funext b.clear_vel

/-- Settles O12: by the range of the note; in range, PUSH moves the note to the front of the list. -/
theorem pushOnAbstractView : Obligations.PushOnAbstractView := by
  intro s note vel hinv
  rcases outOfRange_or_note note with hout | ⟨i, hi⟩
  · refine ⟨s, exec_push_outOfRange hout vel s, fun _ => rfl, fun j hj => ?_⟩
    omega
  · refine ⟨_, exec_push_inRange hi vel s, fun hout => ?_, fun j hj => ?_⟩
    · omega
    · obtain rfl : j = i := Fin.ext (hj.trans hi.symm)
      exact ⟨hinv.held_push j vel, fun k => s.block.push_vel j k vel⟩

/-- Settles O13: by the range of the note; in range, REMOVE erases the note from the list. -/
theorem removeOnAbstractView : Obligations.RemoveOnAbstractView := by
  intro s note hinv
  rcases outOfRange_or_note note with hout | ⟨i, hi⟩
  · refine ⟨s, exec_remove_outOfRange hout s, fun _ => rfl, fun j hj => ?_, rfl⟩
    omega
  · refine ⟨_, exec_remove_inRange hi s, fun hout => ?_, fun j hj => ?_, s.block.alpha_vel_remove i⟩
    · omega
    · obtain rfl : j = i := Fin.ext (hj.trans hi.symm)
      exact hinv.held_remove j

/-- Settles O14: CLEAR leaves a block that shows the empty list, with every velocity as it was. -/
theorem clearOnAbstractView : Obligations.ClearOnAbstractView :=
  fun s hinv => ⟨_, exec_clear s, hinv.held_clear, s.block.alpha_vel_clear⟩

/-! What INV says of `top` and of the links of one entry. -/

theorem Block.Inv.active_of_top {b : Block} (h : b.Inv) {i : Note} (hi : b.top = some i) :
    (b.entry i).active = true :=
  (h.shows_held.members i).1 (List.mem_of_head? (h.shows_held.top ▸ hi))

/-- In a duplicate-free list no two notes stand right after each other. -/
theorem nextIn_asymm {t : List Note} (hd : t.Nodup) {x y : Note} (hxy : nextIn t x = some y) :
    nextIn t y ≠ some x := by
  have hx : x ∈ t := by
    by_contra hx
    simp [nextIn_of_not_mem hx] at hxy
  obtain ⟨k, hk, rfl⟩ := List.getElem_of_mem hx
  rw [nextIn_getElem hd k hk] at hxy
  obtain ⟨hk1, rfl⟩ := List.getElem?_eq_some_iff.1 hxy
  rw [nextIn_getElem hd (k + 1) hk1]
  intro hyx
  obtain ⟨hk2, heq⟩ := List.getElem?_eq_some_iff.1 hyx
  have := (hd.getElem_inj_iff).1 heq
  omega

/-- The entry below an entry names it as the one above (R24). -/
theorem Block.Inv.up_eq_some_iff {b : Block} (h : b.Inv) {i j : Note} :
    (b.entry i).up = some j ↔ (b.entry j).down = some i := by
  rw [h.shows_held.up, h.shows_held.down, prevIn_eq_some_iff h.shows_held.nodup (by simp)]

theorem Block.Inv.down_asymm {b : Block} (h : b.Inv) {i j : Note} (hij : (b.entry i).down = some j) :
    (b.entry j).down ≠ some i := by
  rw [h.shows_held.down] at hij ⊢
  exact nextIn_asymm h.shows_held.nodup hij

theorem Block.Inv.down_ne_self {b : Block} (h : b.Inv) (i : Note) : (b.entry i).down ≠ some i :=
  fun hi => h.down_asymm hi hi

theorem Block.Inv.up_ne_self {b : Block} (h : b.Inv) (i : Note) : (b.entry i).up ≠ some i :=
  mt h.up_eq_some_iff.1 (h.down_ne_self i)

/-- No entry is both neighbours of another. -/
theorem Block.Inv.down_ne_of_up {b : Block} (h : b.Inv) {i j : Note} (hij : (b.entry i).up = some j) :
    (b.entry i).down ≠ some j :=
  h.down_asymm (h.up_eq_some_iff.1 hij)

/-! `link_top` (R81), entry by entry. -/

theorem Block.setVel_entry_self (b : Block) (i : Note) (v : Vel) :
    (b.setVel i v).entry i = { b.entry i with vel := v } := by
  rw [Block.setVel, Block.modify_entry, if_pos rfl]

theorem Block.setVel_entry_of_ne (b : Block) {i j : Note} (hj : j ≠ i) (v : Vel) :
    (b.setVel i v).entry j = b.entry j := by
  rw [Block.setVel, Block.modify_entry, if_neg hj]

theorem Block.linkTop_entry_self {b : Block} {i : Note} (hi : b.top ≠ some i) :
    (b.linkTop i).entry i = { active := true, vel := (b.entry i).vel, up := none, down := b.top } := by
  apply Entry.ext_fields
  · rw [Block.linkTop_active, if_pos rfl]
  · rw [Block.linkTop_vel]
  · rw [Block.linkTop_up, if_neg hi, if_pos rfl]
  · rw [Block.linkTop_down, if_pos rfl]

theorem Block.linkTop_entry_top {b : Block} {i j : Note} (hj : b.top = some j) (hne : j ≠ i) :
    (b.linkTop i).entry j = { b.entry j with up := some i } := by
  apply Entry.ext_fields
  · rw [Block.linkTop_active, if_neg hne]
  · rw [Block.linkTop_vel]
  · rw [Block.linkTop_up, if_pos hj]
  · rw [Block.linkTop_down, if_neg hne]

theorem Block.linkTop_entry_other {b : Block} {i j : Note} (hj : b.top ≠ some j) (hne : j ≠ i) :
    (b.linkTop i).entry j = b.entry j := by
  apply Entry.ext_fields
  · rw [Block.linkTop_active, if_neg hne]
  · rw [Block.linkTop_vel]
  · rw [Block.linkTop_up, if_neg hj, if_neg hne]
  · rw [Block.linkTop_down, if_neg hne]

/-- Settles O15: PUSH of an inactive note is `link_top` and one velocity; the old top is active (R25), so it is
another entry than the note's. -/
theorem pushLinksNewNoteAtTop : Obligations.PushLinksNewNoteAtTop := by
  intro s note vel i hinv hi hina
  have hne : ∀ j, s.block.top = some j → j ≠ i := by
    rintro j hj rfl
    simp [hinv.active_of_top hj] at hina
  refine ⟨_, exec_push_inRange hi vel s, ?_⟩
  rw [State.setBlock_block, Block.push_of_not_active hina]
  refine ⟨?top, ?self, fun j hj => ?oldTop, fun j hji hj => ?other⟩
  case top => rw [Block.setVel_top, Block.linkTop_top]
  case self => rw [Block.setVel_entry_self, Block.linkTop_entry_self fun h => hne i h rfl]
  case oldTop => rw [Block.setVel_entry_of_ne _ (hne j hj), Block.linkTop_entry_top hj (hne j hj)]
  case other => rw [Block.setVel_entry_of_ne _ hji, Block.linkTop_entry_other hj hji]

/-! `unlink` (R80), entry by entry. -/

theorem Block.unlink_entry_self (b : Block) (i : Note) :
    (b.unlink i).entry i = { active := false, vel := (b.entry i).vel, up := none, down := none } := by
  apply Entry.ext_fields
  · rw [Block.unlink_active, if_pos rfl]
  · rw [Block.unlink_vel]
  · rw [Block.unlink_up, if_pos rfl]
  · rw [Block.unlink_down, if_pos rfl]

theorem Block.unlink_entry_above {b : Block} {i u : Note} (hne : u ≠ i) (hu : (b.entry i).up = some u)
    (hd : (b.entry i).down ≠ some u) :
    (b.unlink i).entry u = { b.entry u with down := (b.entry i).down } := by
  apply Entry.ext_fields
  · rw [Block.unlink_active, if_neg hne]
  · rw [Block.unlink_vel]
  · rw [Block.unlink_up, if_neg hne, if_neg hd]
  · rw [Block.unlink_down, if_neg hne, if_pos hu]

theorem Block.unlink_entry_below {b : Block} {i d : Note} (hne : d ≠ i) (hd : (b.entry i).down = some d)
    (hu : (b.entry i).up ≠ some d) :
    (b.unlink i).entry d = { b.entry d with up := (b.entry i).up } := by
  apply Entry.ext_fields
  · rw [Block.unlink_active, if_neg hne]
  · rw [Block.unlink_vel]
  · rw [Block.unlink_up, if_neg hne, if_pos hd]
  · rw [Block.unlink_down, if_neg hne, if_neg hu]

theorem Block.unlink_entry_other {b : Block} {i j : Note} (hne : j ≠ i) (hu : (b.entry i).up ≠ some j)
    (hd : (b.entry i).down ≠ some j) : (b.unlink i).entry j = b.entry j := by
  apply Entry.ext_fields
  · rw [Block.unlink_active, if_neg hne]
  · rw [Block.unlink_vel]
  · rw [Block.unlink_up, if_neg hne, if_neg hd]
  · rw [Block.unlink_down, if_neg hne, if_neg hu]

/-- Settles O18: REMOVE of an active note is `unlink`; under INV the note's entry and its two neighbours are
three different entries. -/
theorem removeUnlinksAndRelinks : Obligations.RemoveUnlinksAndRelinks := by
  intro s note i hinv hi hact
  refine ⟨_, exec_remove_inRange hi s, ?_⟩
  rw [State.setBlock_block, Block.remove_of_active hact]
  refine ⟨s.block.unlink_top i, s.block.unlink_entry_self i, fun u hu => ?above, fun d hd => ?below,
    fun j hne hu hd => Block.unlink_entry_other hne hu hd⟩
  case above =>
    have hne : u ≠ i := by rintro rfl; exact hinv.up_ne_self u hu
    exact Block.unlink_entry_above hne hu (hinv.down_ne_of_up hu)
  case below =>
    have hne : d ≠ i := by rintro rfl; exact hinv.down_ne_self d hd
    exact Block.unlink_entry_below hne hd fun hu => hinv.down_ne_of_up hu hd

end Sys2Proof.Machine
end

section
/-! The queries (41_query.md): ISEMPTY and TOPVEL answer from `top`, which under INV is the head of the abstract
list. -/

namespace Sys2Proof.Machine

theorem exec_isempty (s : State) :
    exec .isempty s = .next (s.emit [response 0x5 (if s.block.isEmpty then 1 else 0)]) := rfl

theorem exec_topvel (s : State) :
    exec .topvel s = .next (s.emit [response 0x6 (velBits s.block.topVel)]) := rfl

theorem velBits_toNat (v : Vel) : (velBits v).toNat = v.toNat :=
  BitVec.toNat_setWidth_of_le (by decide)

/-! What the block computes from `top`. -/

/-- Under INV `top` names the head of the list, `NIL` when there is none (R25). -/
theorem Block.Inv.top_eq_head? {b : Block} (h : b.Inv) : b.top = b.held.head? :=
  h.shows_held.top

theorem Block.Inv.isEmpty_iff {b : Block} (h : b.Inv) : b.isEmpty = true ↔ b.held = [] := by
  rw [Block.isEmpty, h.top_eq_head?, Option.isNone_iff_eq_none, List.head?_eq_none_iff]

theorem Block.topVel_of_top_none {b : Block} (h : b.top = none) : b.topVel = 0 := by
  rw [Block.topVel, h]

theorem Block.topVel_of_top_some {b : Block} {i : Note} (h : b.top = some i) :
    b.topVel = (b.entry i).vel := by
  rw [Block.topVel, h]

/-- Settles O29: the test of `top` is the test of the list. -/
theorem isemptyOnAbstractView : Obligations.IsemptyOnAbstractView := by
  intro s hinv
  refine ⟨_, exec_isempty s, fun hempty => ?empty, fun hheld => ?held⟩
  case empty => rw [if_pos (hinv.isEmpty_iff.2 hempty)]
  case held => rw [if_neg (mt hinv.isEmpty_iff.1 hheld)]

/-- Settles O30: the entry that `top` names is that of the head of the list, and the data is wide enough for
its velocity. -/
theorem topvelOnAbstractView : Obligations.TopvelOnAbstractView := by
  intro s hinv
  refine ⟨_, exec_topvel s, fun hempty => ?empty, fun i hi => ?head⟩
  case empty =>
    have htop : s.block.top = none := hinv.top_eq_head?.trans (List.head?_eq_none_iff.2 hempty)
    rw [Block.topVel_of_top_none htop]
    rfl
  case head =>
    have htop : s.block.top = some i := hinv.top_eq_head?.trans hi
    rw [velBits_toNat, Block.topVel_of_top_some htop, Block.alpha_vel]

end Sys2Proof.Machine
end

section
/-! Errors (60_exceptions.md): no command has an outcome other than a next state. -/

namespace Sys2Proof.Machine

theorem exec_topn (n : BitVec 8) (s : State) :
    exec (.topn n) s = .next (s.emit (topnWords (s.block.topNotes n))) := rfl

/-- Settles O34: PUSH and REMOVE have a next state on either side of the range of the note, and the other
commands whatever their operand. -/
theorem noCommandRaisesAnException : Obligations.NoCommandRaisesAnException := by
  intro i s
  cases i with
  | push note vel =>
    rcases outOfRange_or_note note with hout | ⟨_, hi⟩
    · exact ⟨_, exec_push_outOfRange hout vel s⟩
    · exact ⟨_, exec_push_inRange hi vel s⟩
  | remove note =>
    rcases outOfRange_or_note note with hout | ⟨_, hi⟩
    · exact ⟨_, exec_remove_outOfRange hout s⟩
    · exact ⟨_, exec_remove_inRange hi s⟩
  | clear => exact ⟨_, exec_clear s⟩
  | topn n => exact ⟨_, exec_topn n s⟩
  | isempty => exact ⟨_, exec_isempty s⟩
  | topvel => exact ⟨_, exec_topvel s⟩

end Sys2Proof.Machine
end

section
/-! The commands (40_mutate.md, 41_query.md): every command answers one next state, which differs in the block and
in the words added to the response port, and both are what the abstract view says under INV. -/

namespace Sys2Proof.Machine

/-- The block after a command. -/
def Block.after (b : Block) : Instr → Block
  | .push note vel => (noteOperand note).elim b fun i => b.push i vel
  | .remove note   => (noteOperand note).elim b b.remove
  | .clear         => b.clear
  | .topn _        => b
  | .isempty       => b
  | .topvel        => b

/-- The response words of a command. -/
def Block.answer (b : Block) : Instr → List RespWord
  | .push _ _ => []
  | .remove _ => []
  | .clear    => []
  | .topn n   => topnWords (b.topNotes n)
  | .isempty  => [response 0x5 (if b.isEmpty then 1 else 0)]
  | .topvel   => [response 0x6 (velBits b.topVel)]

/-- The state after a command. -/
def State.after (s : State) (i : Instr) : State := (s.setBlock (s.block.after i)).emit (s.block.answer i)

@[simp] theorem State.after_block (s : State) (i : Instr) : (s.after i).block = s.block.after i := rfl
@[simp] theorem State.after_resetLine (s : State) (i : Instr) : (s.after i).resetLine = s.resetLine := rfl
@[simp] theorem State.after_inputs (s : State) (i : Instr) : (s.after i).inputs = s.inputs := rfl
@[simp] theorem State.after_waiting (s : State) (i : Instr) :
    (s.after i).waiting = s.waiting ++ s.block.answer i := rfl
@[simp] theorem State.after_delivered (s : State) (i : Instr) : (s.after i).delivered = s.delivered := rfl
@[simp] theorem State.after_freeCount (s : State) (i : Instr) : (s.after i).freeCount = s.freeCount := rfl

@[simp] theorem State.emit_nil (s : State) : s.emit [] = s := by
  rw [State.emit, List.append_nil]

/-- What every command does, in every state (R44, R120). -/
theorem exec_eq_after (i : Instr) (s : State) : exec i s = .next (s.after i) := by
  cases i with
  | push note vel =>
    rw [exec, execPush, State.after, Block.answer, State.emit_nil, Block.after]
    cases noteOperand note <;> rfl
  | remove note =>
    rw [exec, execRemove, State.after, Block.answer, State.emit_nil, Block.after]
    cases noteOperand note <;> rfl
  | clear => rw [exec_clear, State.after, Block.answer, State.emit_nil, Block.after]
  | topn n => rfl
  | isempty => rfl
  | topvel => rfl

theorem exec_eq_next {i : Instr} {s t : State} : exec i s = .next t ↔ t = s.after i := by
  rw [exec_eq_after, Host.Outcome.next.injEq, eq_comm]

theorem Block.after_push_outOfRange {note : BitVec 8} (h : 128 ≤ note.toNat) (b : Block) (vel : Vel) :
    b.after (.push note vel) = b := by
  rw [Block.after, noteOperand_eq_none.2 h, Option.elim_none]

theorem Block.after_push_inRange {note : BitVec 8} {i : Note} (hi : i.val = note.toNat) (b : Block) (vel : Vel) :
    b.after (.push note vel) = b.push i vel := by
  rw [Block.after, noteOperand_eq_some.2 hi.symm, Option.elim_some]

theorem Block.after_remove_outOfRange {note : BitVec 8} (h : 128 ≤ note.toNat) (b : Block) :
    b.after (.remove note) = b := by
  rw [Block.after, noteOperand_eq_none.2 h, Option.elim_none]

theorem Block.after_remove_inRange {note : BitVec 8} {i : Note} (hi : i.val = note.toNat) (b : Block) :
    b.after (.remove note) = b.remove i := by
  rw [Block.after, noteOperand_eq_some.2 hi.symm, Option.elim_some]

theorem Abs.push_outOfRange {note : BitVec 8} (h : 128 ≤ note.toNat) (x : Abs) (vel : Vel) :
    x.push note vel = x := by
  rw [Abs.push, noteOperand_eq_none.2 h]

theorem Abs.push_inRange {note : BitVec 8} {i : Note} (hi : i.val = note.toNat) (x : Abs) (vel : Vel) :
    x.push note vel = { held := i :: x.held.erase i, vel := fun j => if j = i then vel else x.vel j } := by
  rw [Abs.push, noteOperand_eq_some.2 hi.symm]

theorem Abs.remove_outOfRange {note : BitVec 8} (h : 128 ≤ note.toNat) (x : Abs) : x.remove note = x := by
  rw [Abs.remove, noteOperand_eq_none.2 h]

theorem Abs.remove_inRange {note : BitVec 8} {i : Note} (hi : i.val = note.toNat) (x : Abs) :
    x.remove note = { x with held := x.held.erase i } := by
  rw [Abs.remove, noteOperand_eq_some.2 hi.symm]

/-- The list after a command is the abstract list after it (R85, R90). -/
theorem Block.Inv.shows_after {b : Block} (h : b.Inv) (i : Instr) : (b.after i).Shows (b.alpha.after i).held := by
  cases i with
  | push note vel =>
    rcases outOfRange_or_note note with hout | ⟨j, hj⟩
    · rw [b.after_push_outOfRange hout, Abs.after, Abs.push_outOfRange hout]
      exact h.shows_held
    · rw [b.after_push_inRange hj, Abs.after, Abs.push_inRange hj]
      exact h.shows_held.push j vel
  | remove note =>
    rcases outOfRange_or_note note with hout | ⟨j, hj⟩
    · rw [b.after_remove_outOfRange hout, Abs.after, Abs.remove_outOfRange hout]
      exact h.shows_held
    · rw [b.after_remove_inRange hj, Abs.after, Abs.remove_inRange hj]
      exact h.shows_held.remove j
  | clear => exact h.shows_held.clear
  | topn n => exact h.shows_held
  | isempty => exact h.shows_held
  | topvel => exact h.shows_held

/-- The velocities after a command are the abstract ones, with or without INV (R85). -/
theorem Block.after_vel (b : Block) (i : Instr) (j : Note) :
    ((b.after i).entry j).vel = (b.alpha.after i).vel j := by
  cases i with
  | push note vel =>
    rcases outOfRange_or_note note with hout | ⟨k, hk⟩
    · rw [b.after_push_outOfRange hout, Abs.after, Abs.push_outOfRange hout, Block.alpha_vel]
    · rw [b.after_push_inRange hk, Abs.after, Abs.push_inRange hk]
      exact b.push_vel k j vel
  | remove note =>
    rcases outOfRange_or_note note with hout | ⟨k, hk⟩
    · rw [b.after_remove_outOfRange hout, Abs.after, Abs.remove_outOfRange hout, Block.alpha_vel]
    · rw [b.after_remove_inRange hk, Abs.after, Abs.remove_inRange hk]
      exact b.remove_vel k j
  | clear => exact b.clear_vel j
  | topn n => rfl
  | isempty => rfl
  | topvel => rfl

theorem Block.Inv.after {b : Block} (h : b.Inv) (i : Instr) : (b.after i).Inv :=
  Block.inv_iff_shows.2 ⟨_, h.shows_after i⟩

/-- The commands commute with the abstract view (R85, R90). -/
theorem Block.Inv.alpha_after {b : Block} (h : b.Inv) (i : Instr) : (b.after i).alpha = b.alpha.after i := by
  have hheld : (b.after i).held = (b.alpha.after i).held := (h.shows_after i).held
  have hvel : (b.after i).alpha.vel = (b.alpha.after i).vel := funext (b.after_vel i)
  rw [Block.alpha, hheld]
  exact congrArg (Abs.mk _) hvel

theorem topnWords_eq (notes : List Note) :
    topnWords notes = (BitVec.ofNat 8 notes.length :: notes.map noteBits).map (response 0x4) := by
  rw [topnWords, List.map_cons, List.map_map]
  rfl

/-- TOPN walks the first notes of the list (R101, R108). -/
theorem Block.Inv.topNotes_eq {b : Block} (h : b.Inv) (n : BitVec 8) : b.topNotes n = b.held.take n.toNat :=
  h.shows_held.topNotes n

theorem Block.Inv.topVel_eq {b : Block} (h : b.Inv) : velBits b.topVel = b.alpha.topvelData := by
  have htop : b.top = b.held.head? := h.top_eq_head?
  rw [Abs.topvelData, Block.alpha_held]
  cases hL : b.held with
  | nil => rw [Block.topVel_of_top_none (by rw [htop, hL, List.head?_nil])]; rfl
  | cons i t => rw [Block.topVel_of_top_some (by rw [htop, hL, List.head?_cons])]; rfl

/-- The commands answer what the abstract view says (R107). -/
theorem Block.Inv.answer_eq {b : Block} (h : b.Inv) (i : Instr) : b.answer i = b.alpha.answer i := by
  cases i with
  | push note vel => rfl
  | remove note => rfl
  | clear => rfl
  | topn n =>
    rw [Block.answer, h.topNotes_eq, topnWords_eq]
    rfl
  | isempty =>
    rw [Block.answer, Abs.answer, Abs.isemptyData, Block.alpha_held]
    simp only [h.isEmpty_iff]
    rfl
  | topvel =>
    rw [Block.answer, h.topVel_eq]
    rfl

/-- Settles O35: the next state of a command commutes with the abstract view and answers what it says. -/
theorem commandsRefineTheAbstractView : Obligations.CommandsRefineTheAbstractView := by
  intro i s hinv
  refine ⟨_, exec_eq_after i s, hinv.after i, ?same, ?words⟩
  case same =>
    rw [State.after_block, hinv.alpha_after]
    exact ⟨rfl, fun _ _ => rfl⟩
  case words => rw [State.after_waiting, hinv.answer_eq]

/-! Sequences of commands. -/

theorem execAll_cons (i : Instr) (is : List Instr) (s : State) : execAll (i :: is) s = execAll is (s.after i) := by
  rw [execAll, exec_eq_after]

/-- Commands keep two views the same: they read a velocity only at a held note. -/
theorem Abs.Same.after {x y : Abs} (h : x.Same y) (i : Instr) : (x.after i).Same (y.after i) := by
  obtain ⟨hheld, hvel⟩ := h
  cases i with
  | push note vel =>
    rcases outOfRange_or_note note with hout | ⟨j, hj⟩
    · rw [Abs.after, Abs.after, Abs.push_outOfRange hout, Abs.push_outOfRange hout]
      exact ⟨hheld, hvel⟩
    · rw [Abs.after, Abs.after, Abs.push_inRange hj, Abs.push_inRange hj]
      refine ⟨by simp only [hheld], fun k hk => ?_⟩
      by_cases hkj : k = j
      · simp only [hkj, if_true]
      · simp only [hkj, if_false]
        exact hvel k (List.mem_of_mem_erase (List.mem_of_ne_of_mem hkj hk))
  | remove note =>
    rcases outOfRange_or_note note with hout | ⟨j, hj⟩
    · rw [Abs.after, Abs.after, Abs.remove_outOfRange hout, Abs.remove_outOfRange hout]
      exact ⟨hheld, hvel⟩
    · rw [Abs.after, Abs.after, Abs.remove_inRange hj, Abs.remove_inRange hj]
      exact ⟨by simp only [hheld], fun k hk => hvel k (List.mem_of_mem_erase hk)⟩
  | clear => exact ⟨rfl, fun k hk => absurd hk List.not_mem_nil⟩
  | topn n => exact ⟨hheld, hvel⟩
  | isempty => exact ⟨hheld, hvel⟩
  | topvel => exact ⟨hheld, hvel⟩

theorem Abs.Same.topvelData_eq {x y : Abs} (h : x.Same y) : x.topvelData = y.topvelData := by
  obtain ⟨hheld, hvel⟩ := h
  rw [Abs.topvelData, Abs.topvelData, ← hheld]
  cases hL : x.held with
  | nil => rfl
  | cons i t => exact congrArg velBits (hvel i (hL ▸ List.mem_cons_self))

theorem Abs.Same.answer_eq {x y : Abs} (h : x.Same y) (i : Instr) : x.answer i = y.answer i := by
  cases i with
  | push note vel => rfl
  | remove note => rfl
  | clear => rfl
  | topn n => rw [Abs.answer, Abs.answer, Abs.topnData, Abs.topnData, h.1]
  | isempty => rw [Abs.answer, Abs.answer, Abs.isemptyData, Abs.isemptyData, h.1]
  | topvel => rw [Abs.answer, Abs.answer, h.topvelData_eq]

/-- Settles O36, by induction on the commands: each keeps the two views the same and answers from the view. -/
theorem abstractViewSuffices : Obligations.AbstractViewSuffices := by
  intro is
  induction is with
  | nil => exact fun s s' _ _ hsame => ⟨s, s', [], rfl, rfl, hsame, by simp, by simp⟩
  | cons i is ih =>
    intro s s' hinv hinv' hsame
    have hnext : (s.after i).block.alpha.Same (s'.after i).block.alpha := by
      rw [State.after_block, State.after_block, hinv.alpha_after, hinv'.alpha_after]
      exact hsame.after i
    obtain ⟨t, t', ws, ht, ht', htsame, hws, hws'⟩ := ih _ _ (hinv.after i) (hinv'.after i) hnext
    refine ⟨t, t', s.block.answer i ++ ws, ?_, ?_, htsame, ?_, ?_⟩
    · rw [execAll_cons, ht]
    · rw [execAll_cons, ht']
    · rw [hws, State.after_waiting, List.append_assoc]
    · rw [hws', State.after_waiting, List.append_assoc, hinv.answer_eq, hinv'.answer_eq, hsame.answer_eq]

end Sys2Proof.Machine
end

section
/-! The recency order (R30): what each command does to the notes whose latest PUSH stands, and to their order. -/

namespace Sys2Proof.Machine

/-- The view holds the notes whose latest PUSH stands in the history `past`, the most recent first, each with the
velocity of that PUSH (R30). -/
structure Abs.RecentFirst (x : Abs) (past : List Instr) : Prop where
  members : ∀ i, i ∈ x.held ↔ sincePush i past ≠ none
  order : x.held.Pairwise (pushedLater past)
  vels : ∀ i ∈ x.held, ∃ p note, sincePush i past = some p ∧ note.toNat = i.val ∧
    past[p]? = some (.push note (x.vel i))

theorem Abs.recentFirst_nil {x : Abs} (h : x.held = []) : x.RecentFirst [] := by
  refine ⟨fun i => ?_, ?_, ?_⟩ <;> simp [h, sincePush]

/-- A command that lets the PUSH of a note stand makes it one command older. -/
def Ages (c : Instr) (past : List Instr) (i : Note) : Prop :=
  sincePush i (c :: past) = (sincePush i past).map (· + 1)

theorem Ages.push_of_ne {note : BitVec 8} {i : Note} (h : noteOperand note ≠ some i) (vel : Vel)
    (past : List Instr) : Ages (.push note vel) past i := by
  rw [Ages, sincePush, if_neg h]

theorem Ages.remove_of_ne {note : BitVec 8} {i : Note} (h : noteOperand note ≠ some i) (past : List Instr) :
    Ages (.remove note) past i := by
  rw [Ages, sincePush, if_neg h]

theorem Ages.sincePush_ne_none {c : Instr} {past : List Instr} {i : Note} (h : Ages c past i) :
    sincePush i (c :: past) ≠ none ↔ sincePush i past ≠ none := by
  rw [h, ne_eq, Option.map_eq_none_iff]

theorem Ages.pushedLater {c : Instr} {past : List Instr} {i j : Note} (hi : Ages c past i) (hj : Ages c past j)
    (h : pushedLater past i j) : pushedLater (c :: past) i j := by
  obtain ⟨p, q, hp, hq, hpq⟩ := h
  exact ⟨p + 1, q + 1, by rw [hi, hp]; rfl, by rw [hj, hq]; rfl, Nat.succ_lt_succ hpq⟩

theorem pushedLater_irrefl (past : List Instr) (i : Note) : ¬ pushedLater past i i := by
  rintro ⟨p, q, hp, hq, hpq⟩
  have : p = q := Option.some.inj (hp.symm.trans hq)
  omega

theorem Abs.RecentFirst.nodup {x : Abs} {past : List Instr} (h : x.RecentFirst past) : x.held.Nodup := by
  refine List.Pairwise.imp (fun {i j} hij => ?_) h.order
  rintro rfl
  exact pushedLater_irrefl past i hij

theorem Abs.RecentFirst.mem_iff_of_ages {x : Abs} {past : List Instr} (h : x.RecentFirst past) {c : Instr} {i : Note}
    (hage : Ages c past i) : i ∈ x.held ↔ sincePush i (c :: past) ≠ none :=
  (h.members i).trans hage.sincePush_ne_none.symm

/-- The order of the notes whose PUSH is one command older is as it was. -/
theorem Abs.RecentFirst.order_of_ages {x : Abs} {past : List Instr} (h : x.RecentFirst past) {c : Instr}
    {l : List Note} (hl : l.Sublist x.held) (hage : ∀ i ∈ l, Ages c past i) :
    l.Pairwise (pushedLater (c :: past)) :=
  (h.order.sublist hl).imp_of_mem fun hi hj hij => (hage _ hi).pushedLater (hage _ hj) hij

/-- The velocity of a note whose PUSH is one command older is still that of its PUSH. -/
theorem Abs.RecentFirst.vels_of_ages {x : Abs} {past : List Instr} (h : x.RecentFirst past) {c : Instr} {i : Note}
    (hi : i ∈ x.held) (hage : Ages c past i) :
    ∃ p note, sincePush i (c :: past) = some p ∧ note.toNat = i.val ∧
      (c :: past)[p]? = some (.push note (x.vel i)) := by
  obtain ⟨p, note, hp, hnote, hpush⟩ := h.vels i hi
  exact ⟨p + 1, note, by rw [hage, hp]; rfl, hnote, by rw [List.getElem?_cons_succ, hpush]⟩

/-- A command that changes no PUSH leaves the view. -/
theorem Abs.RecentFirst.of_ages {x : Abs} {past : List Instr} (h : x.RecentFirst past) {c : Instr}
    (hage : ∀ i, Ages c past i) : x.RecentFirst (c :: past) where
  members i := h.mem_iff_of_ages (hage i)
  order := h.order_of_ages (List.Sublist.refl _) fun i _ => hage i
  vels i hi := h.vels_of_ages hi (hage i)

/-- PUSH of a note makes it the most recent. -/
theorem Abs.RecentFirst.push {x : Abs} {past : List Instr} (h : x.RecentFirst past) {note : BitVec 8} {i : Note}
    (hi : i.val = note.toNat) (vel : Vel) : (x.push note vel).RecentFirst (.push note vel :: past) := by
  have hop : noteOperand note = some i := noteOperand_eq_some.2 hi.symm
  have hnow : sincePush i (.push note vel :: past) = some 0 := by rw [sincePush, if_pos hop]
  have hage : ∀ j, j ≠ i → Ages (.push note vel) past j := fun j hj =>
    Ages.push_of_ne (by rw [hop]; exact fun e => hj (Option.some.inj e).symm) vel past
  have herase : ∀ j, j ∈ x.held.erase i ↔ j ≠ i ∧ j ∈ x.held := fun j => h.nodup.mem_erase_iff
  rw [Abs.push_inRange hi]
  refine ⟨fun j => ?members, List.pairwise_cons.2 ⟨fun j hj => ?first, ?rest⟩, fun j hj => ?vels⟩
  case members =>
    rw [List.mem_cons, herase]
    by_cases hji : j = i
    · subst hji; simp [hnow]
    · simp only [hji, false_or, ne_eq, not_false_eq_true, true_and]
      exact h.mem_iff_of_ages (hage j hji)
  case first =>
    obtain ⟨hji, hj⟩ := (herase j).1 hj
    obtain ⟨q, -, hq, -, -⟩ := h.vels_of_ages hj (hage j hji)
    refine ⟨0, q, hnow, hq, ?_⟩
    rw [hage j hji, Option.map_eq_some_iff] at hq
    obtain ⟨r, -, rfl⟩ := hq
    exact Nat.succ_pos r
  case rest => exact h.order_of_ages List.erase_sublist fun j hj => hage j ((herase j).1 hj).1
  case vels =>
    by_cases hji : j = i
    · subst hji
      exact ⟨0, note, hnow, hi.symm, by simp⟩
    · simp only [hji, if_false]
      exact h.vels_of_ages ((herase j).1 (List.mem_of_ne_of_mem hji hj)).2 (hage j hji)

/-- REMOVE of a note undoes its PUSH. -/
theorem Abs.RecentFirst.remove {x : Abs} {past : List Instr} (h : x.RecentFirst past) {note : BitVec 8} {i : Note}
    (hi : i.val = note.toNat) : (x.remove note).RecentFirst (.remove note :: past) := by
  have hop : noteOperand note = some i := noteOperand_eq_some.2 hi.symm
  have hgone : sincePush i (.remove note :: past) = none := by rw [sincePush, if_pos hop]
  have hage : ∀ j, j ≠ i → Ages (.remove note) past j := fun j hj =>
    Ages.remove_of_ne (by rw [hop]; exact fun e => hj (Option.some.inj e).symm) past
  have herase : ∀ j, j ∈ x.held.erase i ↔ j ≠ i ∧ j ∈ x.held := fun j => h.nodup.mem_erase_iff
  rw [Abs.remove_inRange hi]
  refine ⟨fun j => ?members, ?order, fun j hj => ?vels⟩
  case members =>
    rw [herase]
    by_cases hji : j = i
    · subst hji; simp [hgone]
    · simp only [hji, ne_eq, not_false_eq_true, true_and]
      exact h.mem_iff_of_ages (hage j hji)
  case order => exact h.order_of_ages List.erase_sublist fun j hj => hage j ((herase j).1 hj).1
  case vels =>
    obtain ⟨hji, hj⟩ := (herase j).1 hj
    exact h.vels_of_ages hj (hage j hji)

/-- CLEAR undoes every PUSH. -/
theorem Abs.recentFirst_clear (x : Abs) (past : List Instr) : x.clear.RecentFirst (.clear :: past) := by
  refine ⟨fun i => ?_, ?_, ?_⟩ <;> simp [Abs.clear, sincePush]

/-- Every command keeps the recency order (R30). -/
theorem Abs.RecentFirst.after {x : Abs} {past : List Instr} (h : x.RecentFirst past) (c : Instr) :
    (x.after c).RecentFirst (c :: past) := by
  cases c with
  | push note vel =>
    rcases outOfRange_or_note note with hout | ⟨i, hi⟩
    · rw [Abs.after, Abs.push_outOfRange hout]
      exact h.of_ages fun i => Ages.push_of_ne (by simp [noteOperand_eq_none.2 hout]) vel past
    · exact h.push hi vel
  | remove note =>
    rcases outOfRange_or_note note with hout | ⟨i, hi⟩
    · rw [Abs.after, Abs.remove_outOfRange hout]
      exact h.of_ages fun i => Ages.remove_of_ne (by simp [noteOperand_eq_none.2 hout]) past
    · exact h.remove hi
  | clear => exact x.recentFirst_clear past
  | topn n => exact h.of_ages fun _ => rfl
  | isempty => exact h.of_ages fun _ => rfl
  | topvel => exact h.of_ages fun _ => rfl

/-- A sequence of commands keeps INV and the recency order, whatever the history before it. -/
theorem execAll_recentFirst (is : List Instr) {s : State} {past : List Instr} (hinv : s.block.Inv)
    (h : s.block.alpha.RecentFirst past) :
    ∃ t, execAll is s = .next t ∧ t.block.alpha.RecentFirst (is.reverse ++ past) := by
  induction is generalizing s past with
  | nil => exact ⟨s, rfl, h⟩
  | cons i is ih =>
    have hnext : (s.after i).block.alpha.RecentFirst (i :: past) := by
      rw [State.after_block, hinv.alpha_after]
      exact h.after i
    rw [execAll_cons, List.reverse_cons, List.append_assoc]
    exact ih (hinv.after i) hnext

/-- Settles O37: the empty stack is in recency order with no command before it, and every command keeps it. -/
theorem heldNotesAreInRecencyOrder : Obligations.HeldNotesAreInRecencyOrder := by
  intro is s hinv htop
  have hempty : s.block.alpha.held = [] := List.head?_eq_none_iff.1 (hinv.top_eq_head?.symm.trans htop)
  obtain ⟨t, ht, hrec⟩ := execAll_recentFirst is hinv (Abs.recentFirst_nil hempty)
  rw [List.append_nil] at hrec
  exact ⟨t, ht, hrec.members, hrec.order, hrec.vels⟩

end Sys2Proof.Machine
end

section
/-! The check of INV (R25): the executable check finds exactly the sequence of R25. -/

namespace Sys2Proof.Machine

/-- The check of the links says what the neighbour form says of the notes of the list. -/
theorem Block.linkedBelow_iff {b : Block} {p : Link} {t : List Note} (hd : t.Nodup) :
    b.linkedBelow p t = true ↔ ∀ i ∈ t, (b.entry i).up = prevIn p t i ∧ (b.entry i).down = nextIn t i := by
  induction t generalizing p with
  | nil => simp [Block.linkedBelow]
  | cons a t ih =>
    obtain ⟨ha, hd⟩ := List.nodup_cons.1 hd
    rw [List.forall_mem_cons, Block.linkedBelow, Bool.and_eq_true, Bool.and_eq_true, beq_iff_eq, beq_iff_eq, ih hd]
    simp only [prevIn, nextIn, if_true]
    refine and_congr_right' (forall₂_congr fun i hi => ?_)
    have hne : i ≠ a := fun e => ha (e ▸ hi)
    simp only [hne, if_false]

/-- The check of one entry says that `t` holds exactly the active entries, and what R25 says of the others. -/
theorem Block.entryFits_iff {b : Block} {t : List Note} {i : Note} :
    b.entryFits t i = true ↔ (i ∈ t ↔ (b.entry i).active = true) ∧
      (i ∉ t → (b.entry i).up = none ∧ (b.entry i).down = none) := by
  by_cases hi : i ∈ t <;> simp [Block.entryFits, hi, and_assoc]

/-- The check of INV with the sequence written as a parameter. -/
theorem Block.shows_iff_checks {b : Block} {t : List Note} :
    b.Shows t ↔ t.Nodup ∧ b.top = t.head? ∧ b.linkedBelow none t = true ∧ ∀ i, b.entryFits t i = true := by
  constructor
  · intro h
    refine ⟨h.nodup, h.top, (Block.linkedBelow_iff h.nodup).2 fun i _ => ⟨h.up i, h.down i⟩, fun i => ?_⟩
    refine Block.entryFits_iff.2 ⟨h.members i, fun hi => ⟨?_, ?_⟩⟩
    · rw [h.up, prevIn_of_not_mem hi]
    · rw [h.down, nextIn_of_not_mem hi]
  · rintro ⟨hd, htop, hlinks, hfits⟩
    rw [Block.linkedBelow_iff hd] at hlinks
    have hout : ∀ i, i ∉ t → (b.entry i).up = none ∧ (b.entry i).down = none := fun i =>
      (Block.entryFits_iff.1 (hfits i)).2
    refine ⟨hd, fun i => (Block.entryFits_iff.1 (hfits i)).1, htop, fun i => ?_, fun i => ?_⟩
    · by_cases hi : i ∈ t
      · exact (hlinks i hi).1
      · rw [(hout i hi).1, prevIn_of_not_mem hi]
    · by_cases hi : i ∈ t
      · exact (hlinks i hi).2
      · rw [(hout i hi).2, nextIn_of_not_mem hi]

theorem Block.invCheck_eq_true_iff_shows_held {b : Block} : b.invCheck = true ↔ b.Shows b.held := by
  rw [Block.shows_iff_checks]
  simp [Block.invCheck, and_assoc]

theorem Block.invCheck_iff {b : Block} : b.invCheck = true ↔ b.Inv :=
  Block.invCheck_eq_true_iff_shows_held.trans
    ⟨fun h => Block.inv_iff_shows.2 ⟨_, h⟩, Block.Inv.shows_held⟩

/-- Settles O41: the walk that the check makes is the sequence of R25 where there is one. -/
theorem invCheckIsExact : Obligations.InvCheckIsExact := fun _ => Block.invCheck_iff

/-- Settles O42: after reset the block shows the empty list. -/
theorem resetSatisfiesInv : Obligations.ResetSatisfiesInv :=
  ⟨Block.inv_iff_shows.2 ⟨[], Block.reset_shows⟩, Block.reset_shows.held⟩

end Sys2Proof.Machine
end

section
/-! Steps (20_memory.md section 6, 60_exceptions.md, 70_reset_and_hazards.md): what one host event does, and what the
host owes the block for it. -/

namespace Sys2Proof.Machine
open Sys2Proof.Safety

/-- What the step makes of a fetched event. -/
def Fetched.outcome : Fetched → Host.Outcome State Fault Refusal
  | .run i s => exec i s
  | .done s  => .next s
  | .stop r  => .refused r

theorem step_eq_outcome (s : State) : step s = (fetch s).outcome := by
  rw [step]
  cases fetch s <;> rfl

theorem step_of_not_inv {s : State} (h : ¬ s.block.Inv) : step s = .refused .launchViolatesInv := by
  rw [step_eq_outcome, fetch, if_neg (mt Block.invCheck_iff.1 h), Fetched.outcome]

theorem step_of_inputs_nil {s : State} (h : s.block.Inv) (hin : s.inputs = []) : step s = .next s := by
  rw [step_eq_outcome, fetch, if_pos (Block.invCheck_iff.2 h), hin, Fetched.outcome]

/-- With INV the step is what the first host event makes of the state without that event (R49). -/
theorem step_of_inputs_cons {s : State} {ev : HostEvent} {rest : List HostEvent} (h : s.block.Inv)
    (hin : s.inputs = ev :: rest) : step s = (performEvent ev { s with inputs := rest }).outcome := by
  rw [step_eq_outcome, fetch, if_pos (Block.invCheck_iff.2 h), hin]

/-- A command is accepted exactly when the host keeps its duties (R147). -/
theorem acceptCommand_outcome_eq_next {issuer : Issuer} {w : CmdWord} {s t : State} :
    (acceptCommand issuer w s).outcome = .next t ↔
      issuer = .mainLoop ∧ s.resetLine = false ∧ s.waiting = [] ∧ ∃ i, decode w = .ok i ∧ t = s.after i := by
  rw [acceptCommand]
  cases issuer with
  | interruptHandler => simp [Fetched.outcome]
  | mainLoop =>
    cases hr : s.resetLine with
    | true => simp [Fetched.outcome]
    | false =>
      by_cases hw : s.waiting = []
      · cases hd : decode w <;> simp [Fetched.outcome, hw, exec_eq_next]
      · simp [Fetched.outcome, hw]

/-- What each host event does to the state (R147), where it has a meaning. -/
def HostEvent.Effect (s t : State) : HostEvent → Prop
  | .command issuer w =>
    issuer = .mainLoop ∧ s.resetLine = false ∧ s.waiting = [] ∧ ∃ i, decode w = .ok i ∧ t = s.after i
  | .take k           => t = s.takeResponses k
  | .resetInput l     => t = s.setResetLine l
  | .powerUp          => t = s.resetBlock
  | .timerInterrupt   => t = s

theorem performEvent_outcome_eq_next {ev : HostEvent} {s t : State} :
    (performEvent ev s).outcome = .next t ↔ ev.Effect s t := by
  cases ev with
  | command issuer w => exact acceptCommand_outcome_eq_next
  | take k => rw [performEvent, Fetched.outcome, Host.Outcome.next.injEq, eq_comm, HostEvent.Effect]
  | resetInput l => rw [performEvent, Fetched.outcome, Host.Outcome.next.injEq, eq_comm, HostEvent.Effect]
  | powerUp => rw [performEvent, Fetched.outcome, Host.Outcome.next.injEq, eq_comm, HostEvent.Effect]
  | timerInterrupt => rw [performEvent, Fetched.outcome, Host.Outcome.next.injEq, eq_comm, HostEvent.Effect]

theorem step_cons_eq_next {s t : State} {ev : HostEvent} {rest : List HostEvent} (h : s.block.Inv)
    (hin : s.inputs = ev :: rest) : step s = .next t ↔ ev.Effect { s with inputs := rest } t := by
  rw [step_of_inputs_cons h hin, performEvent_outcome_eq_next]

/-- Everything a step that answers a next state can be. -/
theorem step_cases {s t : State} (h : step s = .next t) :
    s.block.Inv ∧ ((s.inputs = [] ∧ t = s) ∨
      ∃ ev rest, s.inputs = ev :: rest ∧ ev.Effect { s with inputs := rest } t) := by
  by_cases hinv : s.block.Inv
  · refine ⟨hinv, ?_⟩
    cases hin : s.inputs with
    | nil =>
      rw [step_of_inputs_nil hinv hin, Host.Outcome.next.injEq] at h
      exact .inl ⟨rfl, h.symm⟩
    | cons ev rest => exact .inr ⟨ev, rest, rfl, (step_cons_eq_next hinv hin).1 h⟩
  · rw [step_of_not_inv hinv] at h
    cases h

theorem Block.afterReset_inv (n : Nat) : (Block.afterReset n).Inv :=
  Block.inv_iff_shows.2 ⟨[], Block.afterReset_shows n⟩

theorem HostEvent.Effect.inv {ev : HostEvent} {s t : State} (h : ev.Effect s t) (hinv : s.block.Inv) :
    t.block.Inv := by
  cases ev with
  | command issuer w =>
    obtain ⟨-, -, -, i, -, rfl⟩ := h
    exact hinv.after i
  | take k => cases h; exact hinv
  | resetInput l =>
    cases h
    cases l with
    | true => exact Block.afterReset_inv s.freeCount
    | false => exact hinv
  | powerUp => cases h; exact Block.afterReset_inv s.freeCount
  | timerInterrupt => cases h; exact hinv

/-- Settles O43: a step does nothing or performs one event, a command or a reset among them, and each keeps INV. -/
theorem stepKeepsInv : Obligations.StepKeepsInv := by
  intro s t hinv h
  obtain ⟨-, ⟨-, rfl⟩ | ⟨ev, rest, -, heff⟩⟩ := step_cases h
  · exact hinv
  · exact heff.inv hinv

/-- Settles O44: the one command of the word is accepted and run. -/
theorem stepRunsTheDecodedCommand : Obligations.StepRunsTheDecodedCommand := by
  intro s w rest i hinv hin hreset hwait hdec
  rw [exec_eq_after, step_cons_eq_next hinv hin]
  exact ⟨rfl, hreset, hwait, i, hdec, rfl⟩

/-- Settles O45: `withFetchWord` puts the block's host in the case of O44. -/
theorem fetchWordIsRunNext : Obligations.FetchWordIsRunNext := by
  intro s w i hinv hdec
  have hword : s.withFetchWord 32 w.toNat = s.withNextCommand w := by
    rw [State.withFetchWord, BitVec.ofNat_toNat, BitVec.setWidth_eq]
  rw [hword]
  exact stepRunsTheDecodedCommand _ w s.inputs i hinv rfl rfl rfl hdec

theorem decode_toBool_iff {w : CmdWord} : (decode w).toBool = true ↔ ∃ i, decode w = .ok i := by
  cases decode w <;> simp [Except.toBool]

/-- The host's duties on an event are what makes it have an effect (R132, R147). -/
theorem hostDuty_iff_exists_effect {s : State} {ev : HostEvent} {rest : List HostEvent} (hin : s.inputs = ev :: rest) :
    hostDuty s = true ↔ ∃ t, ev.Effect { s with inputs := rest } t := by
  rw [hostDuty, hin]
  cases ev with
  | command issuer w =>
    simp only [Bool.and_eq_true, beq_iff_eq, Bool.not_eq_true', List.isEmpty_iff, decode_toBool_iff, and_assoc]
    constructor
    · rintro ⟨hissuer, hreset, hwait, i, hdec⟩
      exact ⟨_, hissuer, hreset, hwait, i, hdec, rfl⟩
    · rintro ⟨t, hissuer, hreset, hwait, i, hdec, -⟩
      exact ⟨hissuer, hreset, hwait, i, hdec⟩
  | take k => exact iff_of_true rfl ⟨_, rfl⟩
  | resetInput l => exact iff_of_true rfl ⟨_, rfl⟩
  | powerUp => exact iff_of_true rfl ⟨_, rfl⟩
  | timerInterrupt => exact iff_of_true rfl ⟨_, rfl⟩

/-- Settles O46: with INV there is a transition without an event, and with one exactly when it has an effect. -/
theorem stepStopsOnlyOnBrokenDuties : Obligations.StepStopsOnlyOnBrokenDuties := by
  intro s
  by_cases hinv : s.block.Inv
  · simp only [hinv, true_and]
    cases hin : s.inputs with
    | nil => exact iff_of_true ⟨s, step_of_inputs_nil hinv hin⟩ (by rw [hostDuty, hin])
    | cons ev rest =>
      rw [hostDuty_iff_exists_effect hin]
      exact exists_congr fun t => step_cons_eq_next hinv hin
  · refine iff_of_false ?_ fun h => hinv h.1
    rintro ⟨t, ht⟩
    exact hinv (step_cases ht).1

/-- Settles O47, in the order in which `acceptCommand` asks. -/
theorem badCommandsAreRefusedByName : Obligations.BadCommandsAreRefusedByName := by
  intro s issuer w rest hinv hin
  have hstep : step s = (acceptCommand issuer w { s with inputs := rest }).outcome :=
    step_of_inputs_cons hinv hin
  rw [hstep, acceptCommand]
  refine ⟨?_, ?_, ?_, ?_⟩
  · rintro rfl
    rfl
  · rintro rfl hreset
    simp [hreset, Fetched.outcome]
  · rintro rfl hreset hwait
    simp [hreset, hwait, Fetched.outcome]
  · rintro rfl hreset hwait ⟨e, he⟩
    simp [hreset, hwait, he, Fetched.outcome]

/-- Settles O48: the check of INV comes before any event. -/
theorem stateViolatingInvIsRefused : Obligations.StateViolatingInvIsRefused := fun _ => step_of_not_inv

theorem HostEvent.Effect.inputs_eq {ev : HostEvent} {s t : State} (h : ev.Effect s t) : t.inputs = s.inputs := by
  cases ev with
  | command issuer w =>
    obtain ⟨-, -, -, i, -, rfl⟩ := h
    exact s.after_inputs i
  | take k => cases h; rfl
  | resetInput l => cases h; cases l <;> rfl
  | powerUp => cases h; rfl
  | timerInterrupt => cases h; rfl

/-- Settles O49: the step is the outcome of the first event, and no event writes the list. -/
theorem eventsArePerformedInOrder : Obligations.EventsArePerformedInOrder := by
  refine ⟨fun s ev rest hinv hin => ?first, fun s hinv hin => step_of_inputs_nil hinv hin, fun s t h => ?tail⟩
  case first =>
    rw [step_of_inputs_cons hinv hin]
    refine ⟨fun i u h => ?_, fun u h => ?_, fun r h => ?_⟩ <;> rw [h, Fetched.outcome]
  case tail =>
    obtain ⟨-, ⟨hin, rfl⟩ | ⟨ev, rest, hin, heff⟩⟩ := step_cases h
    · rw [hin, List.tail_nil]
    · rw [heff.inputs_eq, hin, List.tail_cons]

/-- Settles O51: the effect of each of these events. -/
theorem otherEventsLeaveTheBlock : Obligations.OtherEventsLeaveTheBlock := by
  intro s hinv
  refine ⟨step_of_inputs_nil hinv, fun rest hin => ?timer, fun k rest hin => ?take, fun rest hin => ?release⟩
  case timer => exact (step_cons_eq_next hinv hin).2 rfl
  case take => exact ⟨_, (step_cons_eq_next hinv hin).2 rfl, rfl⟩
  case release => exact (step_cons_eq_next hinv hin).2 rfl

/-- A reset keeps the waiting words or loses them all (log 6). -/
theorem State.resetBlock_waiting_cases (s : State) :
    s.resetBlock.waiting = s.waiting ∨ s.resetBlock.waiting = [] := by
  rw [State.resetBlock_waiting]
  split
  · exact .inr rfl
  · exact .inl rfl

/-- Settles O50: by the first event, whose effect says which words move. -/
theorem responsesAreDeliveredInOrder : Obligations.ResponsesAreDeliveredInOrder := by
  intro s t h
  obtain ⟨-, ⟨hin, rfl⟩ | ⟨ev, rest, hin, heff⟩⟩ := step_cases h
  · simp [hin]
  · rw [hin, List.head?_cons]
    cases ev with
    | command issuer w =>
      obtain ⟨-, -, hwait, i, -, rfl⟩ := heff
      simpa using hwait
    | take k =>
      cases heff
      simp
    | resetInput l =>
      cases heff
      cases l with
      | true => simpa [State.setResetLine_true] using State.resetBlock_waiting_cases { s with inputs := rest }
      | false => simp [State.setResetLine_false]
    | powerUp =>
      cases heff
      simpa using State.resetBlock_waiting_cases { s with inputs := rest }
    | timerInterrupt =>
      cases heff
      simp

end Sys2Proof.Machine
end

section
/-! The encoding (30_encoding.md, 20_memory.md section 2): words against commands, against the opcode map, and as the
bytes of a carrier. -/

namespace Sys2Proof
open Sys2Proof.Machine

/-- Settles O1: the decoder accepts the fields of a command, and they are read back from its word. -/
theorem decodeOfEncodeIsTheCommand : Obligations.DecodeOfEncodeIsTheCommand := decode_encode

/-- Settles O2: a word is the word of its fields, and these are the command's. -/
theorem encodeOfDecodeIsTheWord : Obligations.EncodeOfDecodeIsTheWord := by
  intro w i h
  rw [encode, ← decode_eq_ok.1 h, Fields.toWord_ofWord]

/-! Which fields are a command's. -/

theorem Fields.wellFormed_iff {f : Fields} :
    f.wellFormed = true ↔ (1 ≤ f.op.toNat ∧ f.op.toNat ≤ 6) ∧ f.z1 = 0 ∧ f.z2 = 0 ∧
      (f.a = 0 ∨ f.op = 1 ∨ f.op = 2 ∨ f.op = 4) ∧ (f.v = 0 ∨ f.op = 1) := by
  simp [Fields.wellFormed, Fields.opKnown, Fields.z1Zero, Fields.z2Zero, Fields.aAllowed, Fields.vAllowed, and_assoc,
    or_assoc]

theorem Instr.fields_wellFormed (i : Instr) : i.fields.wellFormed = true := by
  have h : Laws.EncodeFields.Statement i := by
    cases i with
    | push note vel => exact Laws.EncodeFields.push note vel
    | remove note => exact Laws.EncodeFields.remove note
    | clear => exact Laws.EncodeFields.clear
    | topn n => exact Laws.EncodeFields.topn n
    | isempty => exact Laws.EncodeFields.isempty
    | topvel => exact Laws.EncodeFields.topvel
  rw [← Fields.ofWord_toWord i.fields]
  exact h.2

theorem Instr.fields_op (i : Instr) : i.fields.op = i.opcode := by
  cases i <;> rfl

theorem opcode_cases : ∀ op : BitVec 4, 1 ≤ op.toNat ∧ op.toNat ≤ 6 →
    op = 1 ∨ op = 2 ∨ op = 3 ∨ op = 4 ∨ op = 5 ∨ op = 6 := by
  decide

/-- Well-formed fields are the fields of a command (R63, R66). -/
theorem Fields.exists_eq_fields {f : Fields} (h : f.wellFormed = true) : ∃ i : Instr, f = i.fields := by
  obtain ⟨op, z1, a, z2, v⟩ := f
  obtain ⟨hop, rfl, rfl, ha, hv⟩ := Fields.wellFormed_iff.1 h
  rcases opcode_cases op hop with rfl | rfl | rfl | rfl | rfl | rfl
  · exact ⟨.push a v, rfl⟩
  · obtain rfl : v = 0 := by simpa using hv
    exact ⟨.remove a, rfl⟩
  · obtain rfl : v = 0 := by simpa using hv
    obtain rfl : a = 0 := by simpa using ha
    exact ⟨.clear, rfl⟩
  · obtain rfl : v = 0 := by simpa using hv
    exact ⟨.topn a, rfl⟩
  · obtain rfl : v = 0 := by simpa using hv
    obtain rfl : a = 0 := by simpa using ha
    exact ⟨.isempty, rfl⟩
  · obtain rfl : v = 0 := by simpa using hv
    obtain rfl : a = 0 := by simpa using ha
    exact ⟨.topvel, rfl⟩

/-- A word decodes to a command of a selector exactly when its fields are well-formed and have that selector. -/
theorem decodes_to_opcode_iff {w : CmdWord} {op : BitVec 4} :
    (∃ i, decode w = .ok i ∧ i.opcode = op) ↔
      (Fields.ofWord w).op = op ∧ (Fields.ofWord w).wellFormed = true := by
  constructor
  · rintro ⟨i, hi, rfl⟩
    rw [decode_eq_ok.1 hi]
    exact ⟨i.fields_op, i.fields_wellFormed⟩
  · rintro ⟨rfl, hwf⟩
    obtain ⟨i, hi⟩ := Fields.exists_eq_fields hwf
    exact ⟨i, decode_eq_ok.2 hi, by rw [hi, i.fields_op]⟩

/-! The opcode map, on the fields of a word. -/

/-- The columns of the opcode map (R63): a pattern has its selector and no other bit, and a mask has every bit but
those of the operands of the selector's command. -/
theorem opcodeRows_columns : ∀ r ∈ opcodeRows,
    r.pattern = (Fields.mk r.op 0 0 0 0).toWord ∧
    r.mask = (Fields.mk (BitVec.allOnes 4) (BitVec.allOnes 12)
      (if r.op = 1 ∨ r.op = 2 ∨ r.op = 4 then 0 else BitVec.allOnes 8) (BitVec.allOnes 1)
      (if r.op = 1 then 0 else BitVec.allOnes 7)).toWord := by
  decide

theorem opcodeRows_selectors : ∀ op : BitVec 4,
    (∃ r ∈ opcodeRows, r.op = op) ↔ 1 ≤ op.toNat ∧ op.toNat ≤ 6 := by
  decide

theorem opcodeRows_op_inj : ∀ r ∈ opcodeRows, ∀ r' ∈ opcodeRows, r.op = r'.op → r = r' := by
  decide

/-- A mask of no bit lets every value match zero, a mask of every bit only zero. -/
theorem and_ite_eq_zero_iff {n : Nat} (x : BitVec n) (p : Prop) [Decidable p] :
    x &&& (if p then 0 else BitVec.allOnes n) = 0 ↔ x = 0 ∨ p := by
  by_cases hp : p <;> simp [hp]

/-- A word matches a row exactly when its fields are well-formed with the row's selector. -/
theorem row_matches_iff {r : OpcodeRow} (hr : r ∈ opcodeRows) (w : CmdWord) :
    w &&& r.mask = r.pattern ↔ (Fields.ofWord w).op = r.op ∧ (Fields.ofWord w).wellFormed = true := by
  obtain ⟨hpattern, hmask⟩ := opcodeRows_columns r hr
  have hop : 1 ≤ r.op.toNat ∧ r.op.toNat ≤ 6 := (opcodeRows_selectors r.op).1 ⟨r, hr, rfl⟩
  rw [← Fields.ofWord_inj, Fields.ofWord_and, hpattern, hmask, Fields.ofWord_toWord, Fields.ofWord_toWord,
    Fields.mk.injEq, Fields.wellFormed_iff]
  simp only [BitVec.and_allOnes, and_ite_eq_zero_iff]
  refine and_congr_right fun hw => ?_
  rw [hw]
  tauto

/-- Settles O3: both sides say that the fields are well-formed with the selector. -/
theorem decoderAgreesWithOpcodeMap : Obligations.DecoderAgreesWithOpcodeMap := by
  intro w op
  rw [decodes_to_opcode_iff]
  constructor
  · rintro ⟨hop, hwf⟩
    obtain ⟨hknown, -⟩ := Fields.wellFormed_iff.1 hwf
    obtain ⟨r, hr, hrop⟩ := (opcodeRows_selectors op).2 (hop ▸ hknown)
    exact ⟨r, hr, hrop, (row_matches_iff hr w).2 ⟨hop.trans hrop.symm, hwf⟩⟩
  · rintro ⟨r, hr, rfl, hmatch⟩
    exact (row_matches_iff hr w).1 hmatch

/-- Settles O4: a word's selector is that of every row it matches, and no two rows have the same. -/
theorem noWordMatchesTwoRows : Obligations.NoWordMatchesTwoRows := by
  intro w r hr r' hr' h h'
  obtain ⟨hop, -⟩ := (row_matches_iff hr w).1 h
  obtain ⟨hop', -⟩ := (row_matches_iff hr' w).1 h'
  exact opcodeRows_op_inj r hr r' hr' (hop.symm.trans hop')

theorem decodes_iff {w : CmdWord} : (∃ i, decode w = .ok i) ↔ (Fields.ofWord w).wellFormed = true := by
  constructor
  · rintro ⟨i, hi⟩
    exact (decodes_to_opcode_iff.1 ⟨i, hi, rfl⟩).2
  · intro hwf
    obtain ⟨i, hi, -⟩ := decodes_to_opcode_iff.2 ⟨rfl, hwf⟩
    exact ⟨i, hi⟩

theorem decode_error_iff {w : CmdWord} : (∃ e, decode w = .error e) ↔ ¬ (Fields.ofWord w).wellFormed = true := by
  rw [← decodes_iff]
  cases decode w <;> simp

/-- Settles O5: the fields that are not well-formed, by their arithmetic values. -/
theorem reservedWordsAreExactlyThese : Obligations.ReservedWordsAreExactlyThese := by
  intro w
  rw [decode_error_iff, Fields.wellFormed_iff]
  simp only [← BitVec.toNat_inj, Fields.ofWord_op_toNat, Fields.ofWord_z1_toNat, Fields.ofWord_a_toNat,
    Fields.ofWord_z2_toNat, Fields.ofWord_v_toNat, BitVec.ofNat_eq_ofNat, BitVec.toNat_ofNat]
  omega

/-- Settles O7: each word has the fields of its command, or fails the check that is named. -/
theorem workedEncodingsDecode : Obligations.WorkedEncodingsDecode := by
  refine ⟨?_, ?_, ?_, ?_, ?_, ?_, ?_, ?_, ?_, ?_⟩ <;> rfl

/-! Bytes and fields of response words. -/

theorem response_toNat (tag : BitVec 4) (data : BitVec 8) :
    (response tag data).toNat = tag.toNat * 2 ^ 12 + data.toNat := by
  rw [response, append_toNat, append_toNat]
  simp only [BitVec.toNat_ofNat]
  omega

theorem responseTag_response (tag : BitVec 4) (data : BitVec 8) : responseTag (response tag data) = tag := by
  apply BitVec.eq_of_toNat_eq
  rw [responseTag, extract_toNat, response_toNat]
  omega

theorem responseData_response (tag : BitVec 4) (data : BitVec 8) : responseData (response tag data) = data := by
  apply BitVec.eq_of_toNat_eq
  rw [responseData, extract_toNat, response_toNat]
  omega

/-- Settles O8: the value of a response word is that of its tag and data. -/
theorem responseWordLayout : Obligations.ResponseWordLayout := by
  intro tag data
  refine ⟨?_, ?_, ?_, responseTag_response tag data, responseData_response tag data⟩ <;>
    · rw [response_toNat]
      omega

theorem commandOfBytes_commandBytes (w : CmdWord) : commandOfBytes (commandBytes w) = some w := by
  rw [commandBytes, commandOfBytes, Option.some.injEq]
  apply BitVec.eq_of_toNat_eq
  simp only [append_toNat, extract_toNat]
  omega

theorem responseOfBytes_responseBytes (w : RespWord) : responseOfBytes (responseBytes w) = some w := by
  rw [responseBytes, responseOfBytes, Option.some.injEq]
  apply BitVec.eq_of_toNat_eq
  simp only [append_toNat, extract_toNat]
  omega

/-- Settles O9: each byte is the value of its bits, the upper ones first. -/
theorem carrierSendsMostSignificantByteFirst : Obligations.CarrierSendsMostSignificantByteFirst := by
  refine ⟨fun w => ⟨?_, commandOfBytes_commandBytes w⟩, fun w => ⟨?_, responseOfBytes_responseBytes w⟩⟩
  · have htop : w.toNat / 2 ^ 24 % 2 ^ 8 = w.toNat / 2 ^ 24 := by omega
    simp only [commandBytes, List.map_cons, List.map_nil, extract_toNat, htop, pow_zero, Nat.div_one]
  · have htop : w.toNat / 2 ^ 8 % 2 ^ 8 = w.toNat / 2 ^ 8 := by omega
    simp only [responseBytes, List.map_cons, List.map_nil, extract_toNat, htop, pow_zero, Nat.div_one]

/-! The 8-bit values of a link. -/

theorem noteBits_toNat (i : Note) : (noteBits i).toNat = i.val := by
  rw [noteBits, BitVec.toNat_ofNat]
  omega

theorem noteOperand_noteBits (i : Note) : noteOperand (noteBits i) = some i :=
  noteOperand_eq_some.2 (noteBits_toNat i)

theorem noteBits_ne_nil8 (i : Note) : noteBits i ≠ nil8 := by
  intro h
  have hval : i.val = 255 := (noteBits_toNat i).symm.trans (congrArg BitVec.toNat h)
  omega

theorem linkOfBits_linkBits (l : Link) : linkOfBits (linkBits l) = some l := by
  cases l with
  | none => rw [linkBits, linkOfBits, if_pos rfl]
  | some i => rw [linkBits, linkOfBits, if_neg (noteBits_ne_nil8 i), noteOperand_noteBits, Option.map_some]

theorem linkOfBits_eq_none {w : BitVec 8} : linkOfBits w = none ↔ 128 ≤ w.toNat ∧ w.toNat ≤ 254 := by
  have hnil : w = nil8 ↔ w.toNat = 255 := BitVec.toNat_inj.symm
  rw [linkOfBits]
  split
  · next h =>
    rw [hnil] at h
    simp only [reduceCtorEq, false_iff]
    omega
  · next h =>
    rw [hnil] at h
    rw [Option.map_eq_none_iff, noteOperand_eq_none]
    omega

/-- Settles O10: a note's value is below 128 and `NIL` is 255. -/
theorem linkValuesAreNotesOrNil : Obligations.LinkValuesAreNotesOrNil :=
  ⟨linkOfBits_linkBits, noteBits_toNat, rfl, fun _ => linkOfBits_eq_none⟩

/-! The assembler (30_encoding.md section 5). -/

theorem asmOperand_eq_ok {w : Nat} {cs : List Char} {x : BitVec w} :
    asmOperand w cs = .ok x ↔ numberValue cs = some x.toNat := by
  rw [asmOperand]
  cases numberValue cs with
  | none => simp
  | some n =>
    by_cases hn : n < 2 ^ w
    · simp only [hn, if_true, Except.ok.injEq, Option.some.injEq]
      rw [← BitVec.toNat_inj, BitVec.toNat_ofNat, Nat.mod_eq_of_lt hn]
    · simp only [hn, if_false, reduceCtorEq, Option.some.injEq, false_iff]
      exact fun h => hn (h ▸ x.isLt)

theorem asmOperand_of_lt {w n : Nat} {cs : List Char} (h : numberValue cs = some n) (hn : n < 2 ^ w) :
    asmOperand w cs = .ok (BitVec.ofNat w n) := by
  rw [asmOperand, h]
  exact if_pos hn

theorem asmOperand_of_ge {w n : Nat} {cs : List Char} (h : numberValue cs = some n) (hn : 2 ^ w ≤ n) :
    asmOperand w cs = .error .operandOutOfRange := by
  rw [asmOperand, h]
  exact if_neg (Nat.not_lt.2 hn)

theorem assembleLine_word {line m : List Char} {ops : List Token} (h : tokens [] line = .word m :: ops) :
    assembleLine line = (asmCommand m ops).map some := by
  rw [assembleLine, h]

/-- A line with one operand of 8 bits. -/
theorem asmUnary_word {a : List Char} {n : Nat} (mk : BitVec 8 → Instr) (h : numberValue a = some n) :
    (n ≤ 255 → asmUnary mk [.word a] = .ok (mk (BitVec.ofNat 8 n))) ∧
    (255 < n → asmUnary mk [.word a] = .error .operandOutOfRange) := by
  refine ⟨fun hn => ?_, fun hn => ?_⟩
  · rw [asmUnary, asmOperand_of_lt h (by omega)]; rfl
  · rw [asmUnary, asmOperand_of_ge h (by omega)]; rfl

theorem asmPush_words {a v : List Char} {n m : Nat} (ha : numberValue a = some n) (hv : numberValue v = some m) :
    (n ≤ 255 → m ≤ 127 →
      asmPush [.word a, .comma, .word v] = .ok (.push (BitVec.ofNat 8 n) (BitVec.ofNat 7 m))) ∧
    (255 < n ∨ 127 < m → asmPush [.word a, .comma, .word v] = .error .operandOutOfRange) := by
  refine ⟨fun hn hm => ?_, fun h => ?_⟩
  · rw [asmPush, asmOperand_of_lt ha (by omega), asmOperand_of_lt hv (by omega)]
  · by_cases hn : n ≤ 255
    · rw [asmPush, asmOperand_of_lt ha (by omega), asmOperand_of_ge hv (by omega)]
    · rw [asmPush, asmOperand_of_ge ha (by omega)]

theorem asmCommand_push (ops : List Token) : asmCommand ['P', 'U', 'S', 'H'] ops = asmPush ops := rfl
theorem asmCommand_remove (ops : List Token) :
    asmCommand ['R', 'E', 'M', 'O', 'V', 'E'] ops = asmUnary .remove ops := rfl
theorem asmCommand_topn (ops : List Token) : asmCommand ['T', 'O', 'P', 'N'] ops = asmUnary .topn ops := rfl

theorem asmCommand_unknown {m : List Char} (ops : List Token)
    (h : m ∉ [['P', 'U', 'S', 'H'], ['R', 'E', 'M', 'O', 'V', 'E'], ['C', 'L', 'E', 'A', 'R'], ['T', 'O', 'P', 'N'],
      ['I', 'S', 'E', 'M', 'P', 'T', 'Y'], ['T', 'O', 'P', 'V', 'E', 'L']]) :
    asmCommand m ops = .error .unknownMnemonic := by
  simp only [List.mem_cons, List.not_mem_nil, or_false, not_or] at h
  obtain ⟨hpush, hremove, hclear, htopn, hisempty, htopvel⟩ := h
  rw [asmCommand, if_neg hpush, if_neg hremove, if_neg hclear, if_neg htopn, if_neg hisempty, if_neg htopvel]

/-- Settles O11: each operand takes exactly the numbers below its field's bound. -/
theorem assemblerRefusesOutOfRangeOperands : Obligations.AssemblerRefusesOutOfRangeOperands := by
  refine ⟨fun w cs x => asmOperand_eq_ok, fun line a v n m hline ha hv => ?push, fun line a n hline ha => ?remove,
    fun line a n hline ha => ?topn, fun line m ops hline hm => ?unknown⟩
  case push =>
    obtain ⟨hok, herr⟩ := asmPush_words ha hv
    rw [assembleLine_word hline, asmCommand_push]
    exact ⟨fun hn hm => by rw [hok hn hm]; rfl, fun h => by rw [herr h]; rfl⟩
  case remove =>
    obtain ⟨hok, herr⟩ := asmUnary_word .remove ha
    rw [assembleLine_word hline, asmCommand_remove]
    exact ⟨fun hn => by rw [hok hn]; rfl, fun hn => by rw [herr hn]; rfl⟩
  case topn =>
    obtain ⟨hok, herr⟩ := asmUnary_word .topn ha
    rw [assembleLine_word hline, asmCommand_topn]
    exact ⟨fun hn => by rw [hok hn]; rfl, fun hn => by rw [herr hn]; rfl⟩
  case unknown =>
    rw [assembleLine_word hline, asmCommand_unknown ops hm]
    rfl

end Sys2Proof
end

section
/-! The mutating commands as a whole (40_mutate.md): blocks with the same list and velocities are the same, and what
the commands leave unchanged in every state. -/

namespace Sys2Proof.Machine

/-- Under INV a block is its list and its velocities. -/
theorem Block.Shows.ext {b c : Block} {t : List Note} (hb : b.Shows t) (hc : c.Shows t)
    (hvel : ∀ j, (b.entry j).vel = (c.entry j).vel) : b = c := by
  refine Block.ext_entry (hb.top.trans hc.top.symm) fun j => Entry.ext_fields ?_ (hvel j) ?_ ?_
  · rw [Bool.eq_iff_iff, ← hb.members, ← hc.members]
  · rw [hb.up, hc.up]
  · rw [hb.down, hc.down]

theorem cons_erase_of_head? {t : List Note} {i : Note} (h : t.head? = some i) : i :: t.erase i = t := by
  obtain ⟨t', rfl⟩ := List.head?_eq_some_iff.1 h
  rw [List.erase_cons_head]

/-- PUSH of the top note only writes its velocity (R82, corner case (c)). -/
theorem Block.Inv.push_of_top {b : Block} (h : b.Inv) {i : Note} (hi : b.top = some i) (v : Vel) :
    b.push i v = b.setVel i v := by
  have hlist : i :: b.held.erase i = b.held := cons_erase_of_head? (h.top_eq_head?.symm.trans hi)
  have hpush : (b.push i v).Shows b.held := hlist ▸ h.shows_held.push i v
  refine hpush.ext (h.shows_held.setVel i v) fun j => ?_
  rw [Block.push_vel, Block.setVel_vel]

/-- Settles O16: PUSH of the top note moves it from the front of the list to the front. -/
theorem pushOfTheTopRewritesItsVelocityOnly : Obligations.PushOfTheTopRewritesItsVelocityOnly := by
  intro s note vel i hinv hi htop
  refine ⟨_, exec_push_inRange hi vel s, ?_⟩
  rw [State.setBlock_block, hinv.push_of_top htop]
  exact ⟨Block.setVel_top .., Block.setVel_entry_self .., fun j hj => Block.setVel_entry_of_ne _ hj vel⟩

theorem length_cons_erase (t : List Note) (i : Note) :
    (i :: t.erase i).length = if i ∈ t then t.length else t.length + 1 := by
  split
  · next hi => rw [List.length_cons, List.length_erase_add_one hi]
  · next hi => rw [List.length_cons, List.erase_of_not_mem hi]

/-- Settles O17: the list after PUSH is the note before the others. -/
theorem rePressKeepsTheCount : Obligations.RePressKeepsTheCount := by
  intro s note vel i hinv hi
  have hpush : (s.block.push i vel).Shows (i :: s.block.held.erase i) := hinv.shows_held.push i vel
  refine ⟨_, exec_push_inRange hi vel s, ?_⟩
  rw [State.setBlock_block, hpush.held]
  exact ⟨rfl, hpush.nodup, length_cons_erase s.block.held i⟩

theorem Block.remove_of_not_active {b : Block} {i : Note} (h : (b.entry i).active = false) : b.remove i = b := by
  rw [Block.remove, if_neg (by simp [h])]

/-- Settles O19, by the range of the note: out of range, or of an entry that is not active. -/
theorem removeOfNoteNotHeldIsNoOp : Obligations.RemoveOfNoteNotHeldIsNoOp := by
  intro s note hnot
  rcases outOfRange_or_note note with hout | ⟨i, hi⟩
  · exact exec_remove_outOfRange hout s
  · rw [exec_remove_inRange hi, Block.remove_of_not_active (hnot i hi), State.setBlock_self]

theorem Block.clear_entry_of_active {b : Block} {i : Note} (h : (b.entry i).active = true) :
    b.clear.entry i = { active := false, vel := (b.entry i).vel, up := none, down := none } := by
  rw [Block.clear_entry, Entry.cleared, if_pos h]

theorem Block.clear_entry_of_not_active {b : Block} {i : Note} (h : (b.entry i).active = false) :
    b.clear.entry i = b.entry i := by
  rw [Block.clear_entry, Entry.cleared, if_neg (by simp [h])]

/-- Settles O20: the loop of CLEAR treats each entry by its active bit. -/
theorem clearUnlinksEveryActiveEntry : Obligations.ClearUnlinksEveryActiveEntry := fun s =>
  ⟨_, exec_clear s, s.block.clear_top, fun _ => Block.clear_entry_of_active,
    fun _ => Block.clear_entry_of_not_active⟩

/-! CLEAR against REMOVEs of the held notes. -/

theorem execAll_removes (order : List Note) (s : State) :
    execAll (order.map fun i => .remove (BitVec.ofNat 8 i.val)) s =
      .next (s.setBlock (order.foldl Block.remove s.block)) := by
  induction order generalizing s with
  | nil => rfl
  | cons i order ih =>
    have hi : exec (.remove (BitVec.ofNat 8 i.val)) s = .next (s.setBlock (s.block.remove i)) :=
      exec_remove_inRange (noteBits_toNat i).symm s
    rw [List.map_cons, execAll, hi]
    exact ih _

theorem Block.Shows.foldl_remove {b : Block} {t : List Note} (h : b.Shows t) (order : List Note) :
    (order.foldl Block.remove b).Shows (order.foldl List.erase t) := by
  induction order generalizing b t with
  | nil => exact h
  | cons i order ih => exact ih (h.remove i)

theorem Block.foldl_remove_vel (order : List Note) (b : Block) (j : Note) :
    ((order.foldl Block.remove b).entry j).vel = (b.entry j).vel := by
  induction order generalizing b with
  | nil => rfl
  | cons i order ih => rw [List.foldl_cons, ih, Block.remove_vel]

/-- Taking out notes that cover a duplicate-free list leaves no note. -/
theorem foldl_erase_eq_nil {t order : List Note} (hd : t.Nodup) (h : ∀ i ∈ t, i ∈ order) :
    order.foldl List.erase t = [] := by
  rw [← List.diff_eq_foldl, List.eq_nil_iff_forall_not_mem]
  exact fun i hi => (hd.mem_sdiff_iff.1 hi).2 (h i (hd.mem_sdiff_iff.1 hi).1)

/-- Settles O21: both leave the block with no note in its list and the same velocities. -/
theorem clearIsRemovingEveryNote : Obligations.ClearIsRemovingEveryNote := by
  intro s order hinv hcover
  have hshow : s.block.Shows s.block.held := hinv.shows_held
  have hempty : order.foldl List.erase s.block.held = [] :=
    foldl_erase_eq_nil hshow.nodup fun i hi => hcover i ((hshow.members i).1 hi)
  have hsame : order.foldl Block.remove s.block = s.block.clear := by
    refine Block.Shows.ext (hempty ▸ hshow.foldl_remove order) hshow.clear fun j => ?_
    rw [Block.foldl_remove_vel, Block.clear_vel]
  exact ⟨_, exec_clear s, by rw [execAll_removes, hsame]⟩

/-! What the commands leave unchanged, in every state. -/

theorem Block.push_active_of_ne (b : Block) {i j : Note} (hj : j ≠ i) (v : Vel) :
    ((b.push i v).entry j).active = (b.entry j).active := by
  rw [Block.push, Block.setVel_active, Block.linkTop_active, if_neg hj]
  split
  · rw [Block.unlink_active, if_neg hj]
  · rfl

/-- PUSH leaves an entry that is not the note's, its old neighbours' or the old top's. -/
theorem Block.push_entry_other {b : Block} {i j : Note} (hj : j ≠ i) (htop : b.top ≠ some j)
    (hlinks : (b.entry i).active = true → (b.entry i).up ≠ some j ∧ (b.entry i).down ≠ some j) (v : Vel) :
    (b.push i v).entry j = b.entry j := by
  rw [Block.push, Block.setVel_entry_of_ne _ hj]
  split
  · next hact =>
    obtain ⟨hup, hdown⟩ := hlinks hact
    have htop' : (b.unlink i).top ≠ some j := by
      rw [Block.unlink_top]
      split <;> assumption
    rw [Block.linkTop_entry_other htop' hj, Block.unlink_entry_other hj hup hdown]
  · exact Block.linkTop_entry_other htop hj

theorem note_eq_of_val {note : BitVec 8} {i j : Note} (hi : i.val = note.toNat) (hj : j.val = note.toNat) : i = j :=
  Fin.ext (hi.trans hj.symm)

/-- Settles O22, by the range of the note. -/
theorem pushFrame : Obligations.PushFrame := by
  intro s t note vel h
  rcases outOfRange_or_note note with hout | ⟨k, hk⟩
  · rw [exec_push_outOfRange hout, Host.Outcome.next.injEq] at h
    subst h
    exact ⟨fun _ => rfl, fun _ _ _ _ => ⟨rfl, rfl, fun _ _ => rfl⟩, rfl, rfl, rfl, rfl, rfl⟩
  · rw [exec_push_inRange hk, Host.Outcome.next.injEq] at h
    subst h
    refine ⟨fun hout => ?outOfRange, fun i hi j hj => ?entry, rfl, rfl, rfl, rfl, rfl⟩
    case outOfRange => omega
    case entry =>
      obtain rfl : i = k := note_eq_of_val hi hk
      refine ⟨s.block.push_active_of_ne hj vel, ?velocity, fun htop hlinks =>
        Block.push_entry_other hj htop hlinks vel⟩
      case velocity => rw [State.setBlock_block, Block.push_vel, if_neg hj]

theorem Block.remove_active_of_ne (b : Block) {i j : Note} (hj : j ≠ i) :
    ((b.remove i).entry j).active = (b.entry j).active := by
  rw [Block.remove]
  split
  · rw [Block.unlink_active, if_neg hj]
  · rfl

/-- REMOVE leaves an entry that is not the note's or its neighbours'. -/
theorem Block.remove_entry_other {b : Block} {i j : Note} (hj : j ≠ i) (hup : (b.entry i).up ≠ some j)
    (hdown : (b.entry i).down ≠ some j) : (b.remove i).entry j = b.entry j := by
  rw [Block.remove]
  split
  · exact Block.unlink_entry_other hj hup hdown
  · rfl

/-- Settles O23, by the range of the note. -/
theorem removeFrame : Obligations.RemoveFrame := by
  intro s t note h
  rcases outOfRange_or_note note with hout | ⟨k, hk⟩
  · rw [exec_remove_outOfRange hout, Host.Outcome.next.injEq] at h
    subst h
    exact ⟨fun _ => rfl, fun _ _ _ _ => ⟨rfl, fun _ _ => rfl⟩, fun _ => rfl, rfl, rfl, rfl, rfl, rfl⟩
  · rw [exec_remove_inRange hk, Host.Outcome.next.injEq] at h
    subst h
    refine ⟨fun hout => ?outOfRange, fun i hi j hj => ?entry, s.block.remove_vel k, rfl, rfl, rfl, rfl, rfl⟩
    case outOfRange => omega
    case entry =>
      obtain rfl : i = k := note_eq_of_val hi hk
      exact ⟨s.block.remove_active_of_ne hj, Block.remove_entry_other hj⟩

/-- Settles O24: CLEAR writes only active entries, and never a velocity. -/
theorem clearFrame : Obligations.ClearFrame := by
  intro s t h
  rw [exec_clear, Host.Outcome.next.injEq] at h
  subst h
  exact ⟨fun _ => Block.clear_entry_of_not_active, s.block.clear_vel, rfl, rfl, rfl, rfl, rfl⟩

/-- Settles O25: by the command, on the abstract velocities. -/
theorem onlyPushWritesAVelocity : Obligations.OnlyPushWritesAVelocity := by
  intro i s t j h hne
  rw [exec_eq_next] at h
  subst h
  rw [State.after_block] at hne ⊢
  cases i with
  | push note vel =>
    rcases outOfRange_or_note note with hout | ⟨k, hk⟩
    · rw [Block.after_push_outOfRange hout] at hne
      exact absurd rfl hne
    · rw [Block.after_push_inRange hk, Block.push_vel] at hne ⊢
      split at hne
      · next hjk =>
        subst hjk
        exact ⟨note, by rw [if_pos rfl], hk.symm⟩
      · exact absurd rfl hne
  | remove note =>
    rcases outOfRange_or_note note with hout | ⟨k, hk⟩
    · rw [Block.after_remove_outOfRange hout] at hne
      exact absurd rfl hne
    · rw [Block.after_remove_inRange hk] at hne
      exact absurd (s.block.remove_vel k j) hne
  | clear => exact absurd (s.block.clear_vel j) hne
  | topn n => exact absurd rfl hne
  | isempty => exact absurd rfl hne
  | topvel => exact absurd rfl hne

/-! Idempotence (R45). -/

theorem Block.Inv.push_push {b : Block} (h : b.Inv) (i : Note) (v : Vel) : (b.push i v).push i v = b.push i v := by
  have hpush : (b.push i v).Shows (i :: b.held.erase i) := h.shows_held.push i v
  have htwice : ((b.push i v).push i v).Shows (i :: b.held.erase i) := by
    simpa only [List.erase_cons_head] using hpush.push i v
  refine htwice.ext hpush fun j => ?_
  simp only [Block.push_vel]
  split <;> rfl

theorem Block.Inv.remove_remove {b : Block} (h : b.Inv) (i : Note) : (b.remove i).remove i = b.remove i := by
  have hshow : (b.remove i).Shows (b.held.erase i) := h.shows_held.remove i
  apply Block.remove_of_not_active
  rw [Bool.eq_false_iff, ne_eq, ← hshow.members]
  exact h.shows_held.nodup.not_mem_erase

theorem Block.clear_clear (b : Block) : b.clear.clear = b.clear :=
  Block.ext_entry rfl fun j => Block.clear_entry_of_not_active (b.clear_active j)

/-- A mutating command on the block after it changes nothing (R45). -/
theorem Block.Inv.after_after {b : Block} (h : b.Inv) {i : Instr} (hi : isMutating i = true) :
    (b.after i).after i = b.after i := by
  cases i with
  | push note vel =>
    rcases outOfRange_or_note note with hout | ⟨k, hk⟩
    · rw [Block.after_push_outOfRange hout]
    · rw [Block.after_push_inRange hk, Block.after_push_inRange hk, h.push_push]
  | remove note =>
    rcases outOfRange_or_note note with hout | ⟨k, hk⟩
    · rw [Block.after_remove_outOfRange hout]
    · rw [Block.after_remove_inRange hk, Block.after_remove_inRange hk, h.remove_remove]
  | clear => exact b.clear_clear
  | topn n => cases hi
  | isempty => cases hi
  | topvel => cases hi

/-- A mutating command answers no word (40_mutate.md). -/
theorem Block.answer_of_mutating {i : Instr} (hi : isMutating i = true) (b : Block) : b.answer i = [] := by
  cases i with
  | push note vel => rfl
  | remove note => rfl
  | clear => rfl
  | topn n => cases hi
  | isempty => cases hi
  | topvel => cases hi

theorem State.after_of_mutating {i : Instr} (hi : isMutating i = true) (s : State) :
    s.after i = s.setBlock (s.block.after i) := by
  rw [State.after, Block.answer_of_mutating hi, State.emit_nil]

/-- Settles O26: a mutating command changes the block alone, and the second time not even it. -/
theorem mutatingCommandsAreIdempotent : Obligations.MutatingCommandsAreIdempotent := by
  intro i s hinv hi
  refine ⟨_, exec_eq_after i s, ?_⟩
  rw [exec_eq_after, State.after_of_mutating hi, State.after_of_mutating hi, State.setBlock_block,
    hinv.after_after hi]
  rfl

end Sys2Proof.Machine
end

section
/-! The queries as a whole (41_query.md): the words of TOPN, and what its callers do with them. -/

namespace Sys2Proof.Machine

theorem Block.after_of_query {i : Instr} (hi : isMutating i = false) (b : Block) : b.after i = b := by
  cases i with
  | push note vel => cases hi
  | remove note => cases hi
  | clear => cases hi
  | topn n => rfl
  | isempty => rfl
  | topvel => rfl

/-- Settles O31: a query leaves the block, and a command adds its words at the end. -/
theorem queriesWriteNoState : Obligations.QueriesWriteNoState := by
  intro i s t hi h
  rw [exec_eq_next] at h
  subst h
  exact ⟨Block.after_of_query hi s.block, ⟨_, rfl⟩, rfl, rfl, rfl, rfl⟩

/-- TOPN under INV reports the first held notes. -/
theorem exec_topn_of_inv {s : State} (h : s.block.Inv) (n : BitVec 8) :
    exec (.topn n) s = .next (s.emit (topnWords (s.block.held.take n.toNat))) := by
  rw [exec_topn, h.topNotes_eq]

/-- Settles O27: the walk from `top` meets the first held notes. -/
theorem topnAnswersTheTopNotes : Obligations.TopnAnswersTheTopNotes :=
  fun _ n hinv => exec_topn_of_inv hinv n

theorem length_topnWords (notes : List Note) : (topnWords notes).length = 1 + notes.length := by
  rw [topnWords, List.length_cons, List.length_map, Nat.add_comm]

/-- The count word of at most 128 notes says how many they are (R103). -/
theorem responseCount_topnWords {notes : List Note} (h : notes.length ≤ 128) :
    responseCount (topnWords notes) = notes.length := by
  rw [topnWords, responseCount, responseData_response, BitVec.toNat_ofNat]
  omega

theorem responseNotes_topnWords (notes : List Note) : responseNotes (topnWords notes) = notes.map noteBits := by
  rw [responseNotes, topnWords, List.drop_one, List.tail_cons, List.map_map]
  exact List.map_congr_left fun i _ => responseData_response 0x4 (noteBits i)

theorem Block.Inv.length_held_le {b : Block} (h : b.Inv) : b.held.length ≤ 128 := h.shows_held.length_le

theorem Block.Inv.length_take_le {b : Block} (h : b.Inv) (n : Nat) : (b.held.take n).length ≤ 128 :=
  (List.length_take_le' n b.held).trans h.length_held_le

/-- Settles O28: the count fits in the data of a word, since no more than 128 notes are held. -/
theorem topnCountNeverWraps : Obligations.TopnCountNeverWraps := by
  intro s n hinv
  have hlen : (s.block.held.take n.toNat).length = min n.toNat s.block.held.length := List.length_take
  refine ⟨_, exec_topn_of_inv hinv n, ?count, hlen ▸ hinv.length_take_le n.toNat, ?length⟩
  case count =>
    have hcount := responseCount_topnWords (hinv.length_take_le n.toNat)
    rw [State.emit_waiting, List.getElem?_append_right (Nat.le_refl _), Nat.sub_self, ← hlen, ← hcount]
    rfl
  case length => rw [State.emit_waiting, List.length_append, length_topnWords, hlen, Nat.add_assoc]

theorem length_storeFrom (k : Nat) (notes buf : List (BitVec 8)) : (storeFrom k notes buf).length = buf.length := by
  induction notes generalizing k buf with
  | nil => rfl
  | cons note notes ih => rw [storeFrom, ih, List.length_set]

theorem getElem?_storeFrom_of_lt {k j : Nat} (h : j < k) (notes buf : List (BitVec 8)) :
    (storeFrom k notes buf)[j]? = buf[j]? := by
  induction notes generalizing k buf with
  | nil => rfl
  | cons note notes ih => rw [storeFrom, ih (Nat.lt_succ_of_lt h), List.getElem?_set_ne (Nat.ne_of_gt h)]

/-- The caller's store writes the notes at the positions from `k` that the buffer has (R102; log 19). -/
theorem getElem?_storeFrom_add {k j : Nat} (notes : List (BitVec 8)) {buf : List (BitVec 8)} (h : k + j < buf.length) :
    (storeFrom k notes buf)[k + j]? = if j < notes.length then notes[j]? else buf[k + j]? := by
  induction notes generalizing k j buf with
  | nil => rfl
  | cons note notes ih =>
    cases j with
    | zero =>
      have hk : k < buf.length := h
      simp [storeFrom, getElem?_storeFrom_of_lt (Nat.lt_succ_self k), hk]
    | succ j =>
      have hnext : k + (j + 1) = (k + 1) + j := by omega
      rw [storeFrom, hnext, ih (by rw [List.length_set]; omega), List.getElem?_set_ne (by omega)]
      simp only [List.length_cons, Nat.succ_lt_succ_iff, List.getElem?_cons_succ]

theorem getElem?_callerStore {j : Nat} {buf : List (BitVec 8)} (h : j < buf.length) (ws : List RespWord) :
    (callerStore buf ws)[j]? = if j < (responseNotes ws).length then (responseNotes ws)[j]? else buf[j]? := by
  simpa only [callerStore, Nat.zero_add] using
    getElem?_storeFrom_add (k := 0) (responseNotes ws) (by rwa [Nat.zero_add])

/-- Settles O32: the words after the count are as many as the count says, and are stored from position 0. -/
theorem callersBufferBeyondTheCountIsKept : Obligations.CallersBufferBeyondTheCountIsKept := by
  intro s t n buf hinv hwait h
  rw [exec_topn_of_inv hinv, Host.Outcome.next.injEq] at h
  subst h
  rw [State.emit_waiting, hwait, List.nil_append, responseCount_topnWords (hinv.length_take_le n.toNat)]
  refine ⟨length_storeFrom .., fun k hk => ?_⟩
  rw [getElem?_callerStore hk, responseNotes_topnWords, List.length_map]
  split
  · next hlt =>
    rw [List.getElem?_map, List.getElem?_take_of_lt (by rw [List.length_take] at hlt; omega)]
  · rfl

theorem nVoices_toNat : (BitVec.ofNat 8 Config.nVoices).toNat = Config.nVoices := by
  have : Config.nVoices < 2 ^ 8 := by
    have := Config.nVoicesLessOne.isLt
    rw [Config.nVoices]
    omega
  rw [BitVec.toNat_ofNat, Nat.mod_eq_of_lt this]

/-- Settles O33: `N_VOICES` fits in the operand of TOPN. -/
theorem dispatcherReadsTheTopVoices : Obligations.DispatcherReadsTheTopVoices := by
  intro s hinv hwait
  refine ⟨_, exec_topn_of_inv hinv _, rfl, ?_⟩
  rw [State.emit_waiting, hwait, List.nil_append, responseNotes_topnWords, nVoices_toNat]

end Sys2Proof.Machine
end

section
/-! The links under INV (10_state.md section 3), and reset (70_reset_and_hazards.md section 1). -/

namespace Sys2Proof.Machine

theorem linkBits_range (l : Link) : (linkBits l).toNat ≤ 127 ∨ linkBits l = 0xFF := by
  cases l with
  | none => exact .inr rfl
  | some i =>
    left
    have hval : (linkBits (some i)).toNat = i.val := noteBits_toNat i
    omega

/-- Settles O39: the list of R25 starts at `top`. -/
theorem topIsTheFirstHeldNote : Obligations.TopIsTheFirstHeldNote := by
  intro b hinv
  refine ⟨hinv.top_eq_head?, ?_, linkBits_range b.top⟩
  rw [hinv.top_eq_head?, List.head?_eq_none_iff]

theorem nextIn_eq_of_getElem? {t : List Note} (hd : t.Nodup) {k : Nat} {i : Note} (hi : t[k]? = some i) :
    nextIn t i = t[k + 1]? := by
  obtain ⟨hk, rfl⟩ := List.getElem?_eq_some_iff.1 hi
  exact nextIn_getElem hd k hk

/-- Settles O40: the links are the neighbours in the list. -/
theorem linksNameTheNeighbours : Obligations.LinksNameTheNeighbours := by
  intro b hinv
  have h : b.Shows b.held := hinv.shows_held
  refine ⟨fun k i j hi hj => ?neighbours, fun i hi => ?first, fun i hi => ?last, fun i j hij => ?active⟩
  case neighbours =>
    have hdown : (b.entry i).down = some j := by rw [h.down, nextIn_eq_of_getElem? h.nodup hi, hj]
    exact ⟨hdown, hinv.up_eq_some_iff.2 hdown⟩
  case first =>
    rw [h.up]
    exact (prevIn_eq_start h.nodup (List.mem_of_head? hi) (by simp)).2 hi
  case last =>
    rw [List.getLast?_eq_getElem?] at hi
    rw [h.down, nextIn_eq_of_getElem? h.nodup hi]
    exact List.getElem?_eq_none (by omega)
  case active =>
    rw [← h.members]
    rcases hij with hup | hdown
    · exact (prevIn_mem (h.up i ▸ hup)).resolve_left (by simp)
    · exact nextIn_mem (h.down i ▸ hdown)

theorem Block.afterReset_fields (n : Nat) (i : Note) : ((Block.afterReset n).entry i).active = false ∧
    ((Block.afterReset n).entry i).up = none ∧ ((Block.afterReset n).entry i).down = none := by
  rw [Block.afterReset_entry]
  exact ⟨rfl, rfl, rfl⟩

/-- Settles O53: both events are performed as a reset of the block. -/
theorem resetEmptiesTheStack : Obligations.ResetEmptiesTheStack := by
  intro s rest hinv hin
  rcases hin with hin | hin
  · refine ⟨_, (step_cons_eq_next hinv hin).2 rfl, rfl, rfl, Block.afterReset_fields s.freeCount, fun _ => rfl⟩
  · refine ⟨_, (step_cons_eq_next hinv hin).2 rfl, rfl, rfl, Block.afterReset_fields s.freeCount, fun h => ?_⟩
    rw [hin] at h
    cases h

/-- Settles O54: both blocks show the empty list, so their abstract views are the same. -/
theorem clearAndResetCannotBeToldApart : Obligations.ClearAndResetCannotBeToldApart := by
  intro s r hinv htop hentries
  have hclear : s.block.clear.Shows [] := hinv.shows_held.clear
  have hreset : r.block.Shows [] := Block.shows_nil htop hentries
  refine ⟨_, exec_clear s, htop.symm, fun i => ?fields, fun is => ?words⟩
  case fields =>
    obtain ⟨hact, hup, hdown⟩ := hentries i
    rw [State.setBlock_block, Block.clear_active, hclear.up, hclear.down, hact, hup, hdown]
    exact ⟨rfl, rfl, rfl⟩
  case words =>
    have hsame : s.block.clear.alpha.Same r.block.alpha := by
      refine ⟨hclear.held.trans hreset.held.symm, fun i hi => ?_⟩
      rw [Block.alpha_held, hclear.held] at hi
      exact absurd hi List.not_mem_nil
    obtain ⟨u, u', ws, hu, hu', -, hws, hws'⟩ := abstractViewSuffices is (s.setBlock s.block.clear) r
      (Block.inv_iff_shows.2 ⟨_, hclear⟩) (Block.inv_iff_shows.2 ⟨_, hreset⟩) hsame
    exact ⟨u, u', ws, hu, hu', hws, hws'⟩

end Sys2Proof.Machine
end
